-- ==== Sys2Proof/Word.lean ====
section
/-! DEFINITION. The plain word types of EASDEMOD and the type of a memory space. -/

namespace Sys2Proof

/-- A received byte, one cell of `HEAD`, `MSG`, `LASTMSG` (R40, R42). -/
abbrev Byte := BitVec 8

/-- A 16-bit two's complement sample word, one cell of `WIN` (R40, R41). -/
abbrev Sample := BitVec 16

/-- A sample index, `W_IDX` = 64 bits (R6, R12). -/
abbrev Idx := BitVec 64

/-- A host time, `W_TIME` = 64 bits, opaque to the block (R6, R24). -/
abbrev Time := BitVec 64

/-- A command word of the command port, 19 bits (R61). -/
abbrev CmdWord := BitVec 19

/-- One memory space of R40 with cells of `w` bits: the cells that do not hold 0, as pairs of cell
index and contents, indices strictly rising. A cell that is not listed reads as 0, its reset
contents (R33). `Memory 8` is a list of `Host.Cell`. -/
abbrev Memory (w : Nat) := List (Nat × BitVec w)

end Sys2Proof
end

