-- ==== Sys2Proof/Syntax.lean ====
section
/-! DEFINITION. The operations of EASDEMOD: one constructor of `Instr` per row of
spec/opcode_table.json, and the small enumerations their operands and selectors use. -/

namespace Sys2Proof

/-- The tone decision `toneSign(WIN)` of one window (R83): the sign of mark energy minus space
energy. -/
inductive ToneSign where
  /-- +1: mark, `f > 0`. -/
  | mark
  /-- -1: space, `f < 0`. -/
  | space
  /-- 0: neither. -/
  | neither
  deriving DecidableEq, Repr, Inhabited

/-- The four read-only reference tables (R40, R80). -/
inductive RefTable where
  /-- `TAB_MI`: mark, in-phase. -/
  | markI
  /-- `TAB_MQ`: mark, quadrature. -/
  | markQ
  /-- `TAB_SI`: space, in-phase. -/
  | spaceI
  /-- `TAB_SQ`: space, quadrature. -/
  | spaceQ
  deriving DecidableEq, Repr

/-- The frame phase, the block's only control state (R20, R120). -/
inductive Phase where
  | idle
  | headerSearch
  | readingMessage
  | readingEom
  deriving DecidableEq, Repr

/-- Every operation of the opcode table. The host commands come from the command port; the others are
the internal operations of R72, which a `SAMPLE` or a `FLUSH` performs. Operands are those the rule of
the row lists; a register or the `time_in` port that a rule names is read from the state. -/
inductive Instr where
  /-- `NOP` (R130). -/
  | nop
  /-- `SAMPLE x` (R131): `x` is the sample word `data[15:0]`. -/
  | sample (x : Sample)
  /-- `FLUSH` (R132). -/
  | flush
  /-- `CLEAR` (R133). -/
  | clear
  /-- `ACK mask` (R134): `mask` is `data[3:0]`. -/
  | ack (mask : BitVec 4)
  /-- Reserved command `op` = 101 (R135). -/
  | reserved5
  /-- Reserved command `op` = 110 (R135). -/
  | reserved6
  /-- Reserved command `op` = 111 (R135). -/
  | reserved7
  /-- `TABLE` (R80). -/
  | table
  /-- `CORR` (R81) against one of the four tables. -/
  | corr (ref : RefTable)
  /-- `DISC` (R82, R83). -/
  | disc
  /-- `DCD` (R91). -/
  | dcd
  /-- `INTEG` (R92). -/
  | integ
  /-- `DLLADJ` (R93). -/
  | dlladj
  /-- `PHADV` (R94). -/
  | phadv
  /-- `BITDEC` (R95). -/
  | bitdec
  /-- `PRELOCK` (R96). -/
  | prelock
  /-- `BYTECNT` (R97). -/
  | bytecnt
  /-- `CLASSIFY`, allowed byte (R98). -/
  | classifyPass
  /-- `CLASSIFY`, byte not allowed (R99). -/
  | classifyFail
  /-- `SUBMIT.D.IDLE` (R111): data byte `b` with index `idx` while `phase = Idle`. -/
  | submitDIdle (b : Byte) (idx : Idx)
  /-- `SUBMIT.D.HS` (R112, R113): data byte while `phase = HeaderSearch`. -/
  | submitDHs (b : Byte) (idx : Idx)
  /-- `SUBMIT.D.MSG` (R114): data byte while `phase = ReadingMessage`. -/
  | submitDMsg (b : Byte) (idx : Idx)
  /-- `SUBMIT.D.EOM` (R115): data byte while `phase = ReadingEOM`. -/
  | submitDEom (b : Byte) (idx : Idx)
  /-- `SUBMIT.N.IDLE` (R116): null byte while `phase = Idle`. -/
  | submitNIdle (idx : Idx)
  /-- `SUBMIT.N.HS` (R117): null byte while `phase = HeaderSearch`. -/
  | submitNHs (idx : Idx)
  /-- `SUBMIT.N.MSG` (R118): null byte while `phase = ReadingMessage`. -/
  | submitNMsg (idx : Idx)
  /-- `SUBMIT.N.EOM` (R119): null byte while `phase = ReadingEOM`. -/
  | submitNEom (idx : Idx)
  deriving DecidableEq, Repr

end Sys2Proof
end

