-- ==== Sys2Proof/Config.lean ====
section
/-! DEFINITION. The implementation parameters of R6 (configuration, not state: no operation writes
them) and the free functions that stand for what the spec leaves OPEN (`NUMERICS`, `SCALE`).
Log 14 lists which constants the spec itself decided or took from general knowledge. -/

namespace Sys2Proof

/-- What the phase accumulator holds after wraparound (R6 `WRAP`, R94): the spec fixes `modulo` and
names `reset_to(c)` as the alternative. -/
inductive WrapRule where
  | modulo
  | resetTo (c : Nat)
  deriving DecidableEq, Repr

/-- How a decided bit enters `lasts` (R6 `BIT_ORDER`, R95): the spec fixes `enter_msb_shift_right` and
names `enter_lsb_shift_left` as the alternative. -/
inductive BitOrder where
  | enterMsbShiftRight
  | enterLsbShiftLeft
  deriving DecidableEq, Repr

namespace Config

/-- `FS`, the sample rate in Hz (R6). -/
abbrev fs : Nat := 22050
/-- `F_MARK` = 2083.3 Hz, in tenths of a hertz (R6). -/
abbrev fMarkTenths : Nat := 20833
/-- `F_SPACE` = 1562.5 Hz, in tenths of a hertz (R6). -/
abbrev fSpaceTenths : Nat := 15625
/-- `BAUD` = 520.83 symbols per second, in hundredths (R6). -/
abbrev baudHundredths : Nat := 52083
/-- `L`, the correlation length in samples: `round(FS / BAUD)` (R6). -/
abbrev corrLen : Nat := 42
/-- `SUBSAMP`, input samples per decision step (R6). -/
abbrev subsamp : Nat := 2
/-- `PHASE_MOD` (R6). -/
abbrev phaseMod : Nat := 65536
/-- `PHASE_INC`: `round(PHASE_MOD * SUBSAMP * BAUD / FS)` (R6). -/
abbrev phaseInc : Nat := 3096
/-- `MAX_STEP` (R6). -/
abbrev maxStep : Nat := 8192
/-- Numerator of `GAIN` = 1/2 (R6). -/
abbrev gainNum : Nat := 1
/-- Denominator of `GAIN` = 1/2 (R6). -/
abbrev gainDen : Nat := 2
/-- `CENTRE_THR`: `PHASE_MOD/2 - floor(PHASE_INC/8)` (R6). -/
abbrev centreThr : Nat := 32381
/-- `LOW_GUARD`: `floor(PHASE_INC/2)` (R6). -/
abbrev lowGuard : Nat := 1548
/-- `HIGH_GUARD`: `PHASE_MOD - floor(PHASE_INC/2)` (R6). -/
abbrev highGuard : Nat := 63988
/-- `WRAP` (R6). -/
def wrap : WrapRule := .modulo
/-- `INTEG_MAX` (R6). -/
abbrev integMax : Int := 10
/-- `PREAMBLE` (R6, R70). -/
abbrev preamble : Byte := 0xAB#8
/-- `BIT_ORDER` (R6). -/
def bitOrder : BitOrder := .enterMsbShiftRight
/-- `HEAD_LEN`, the header window in bytes (R6). -/
abbrev headLen : Nat := 4
/-- `MSG_CAP`, the cap of the message buffer in bytes (R6). -/
abbrev msgCap : Nat := 268
/-- Cells of `LASTMSG`: 4 + `MSG_CAP` (R25, R40). -/
abbrev lastMsgCap : Nat := 272
/-- `HDR_BEGIN`, ASCII `ZCZC` (R6, R68). -/
abbrev hdrBegin : List Byte := [0x5A#8, 0x43#8, 0x5A#8, 0x43#8]
/-- `EOM`, ASCII `NNNN` (R6, R68). -/
abbrev eom : List Byte := [0x4E#8, 0x4E#8, 0x4E#8, 0x4E#8]
/-- The message terminator character `-` (R68). -/
abbrev hyphen : Byte := 0x2D#8

/-- `round` of the quotient of two naturals, half away from zero (R7). -/
def roundDiv (n d : Nat) : Nat := (2 * n + d) / (2 * d)

/-- FREE VALUE (log 6): entry `i` of a reference table in the block's own number format, which the spec
leaves to `NUMERICS` (R80, R85), as an integer code. -/
opaque tableEntry : RefTable → Nat → Int

/-- FREE VALUE (log 6): the block's dot product of a window that is not all zero against table entries,
in the block's own number format, summation order and `SCALE` (R81, R85). -/
opaque dotProduct : List Sample → List Int → Int

/-- FREE VALUE (log 6): the sign the block computes for
`(mark_I^2 + mark_Q^2) - (space_I^2 + space_Q^2)` from four correlations that are not all zero
(R82, R85). -/
opaque discriminantSign : Int → Int → Int → Int → ToneSign

/-- The contents of one reference table, `L` entries (R40, R80). -/
def tableOf (ref : RefTable) : List Int := (List.range corrLen).map (tableEntry ref)

end Config

end Sys2Proof
end

