-- ==== Sys2Proof/WellFormed.lean ====
section
/-! DEFINITION. Which instruction terms an encoding admits. -/

namespace Sys2Proof

/-- A data byte is a non-zero byte: 0 is the null byte of the `submit` interface (R67, R111). -/
def dataByteOk (b : Byte) : Bool := b != 0#8

/-- The checks an instruction term must pass. Every operand of a command is admitted at every value
(R64: "Ignored data bits are not reserved: any value is legal"); a `SUBMIT.D` case carries a non-zero
byte (R111). -/
def wellFormed : Instr → Bool
  | .nop => true
  | .sample _ => true
  | .flush => true
  | .clear => true
  | .ack _ => true
  | .reserved5 => true
  | .reserved6 => true
  | .reserved7 => true
  | .table => true
  | .corr _ => true
  | .disc => true
  | .dcd => true
  | .integ => true
  | .dlladj => true
  | .phadv => true
  | .bitdec => true
  | .prelock => true
  | .bytecnt => true
  | .classifyPass => true
  | .classifyFail => true
  | .submitDIdle b _ => dataByteOk b
  | .submitDHs b _ => dataByteOk b
  | .submitDMsg b _ => dataByteOk b
  | .submitDEom b _ => dataByteOk b
  | .submitNIdle _ => true
  | .submitNHs _ => true
  | .submitNMsg _ => true
  | .submitNEom _ => true

end Sys2Proof
end

