-- ==== Sys2Proof/Decode.lean ====
section
/-! DEFINITION. The decoder of the command port and of the frame decoder's input, and the encoder,
both written from the encodings of 30_encoding.md. -/

namespace Sys2Proof

/-- What a decoder is given: a word on the command port (R61), or a value on the frame decoder's input
with the frame phase that selects the case and the index that comes with it (R67, 42_frame.md). -/
inductive Packet where
  | cmd (word : CmdWord)
  | frameByte (phase : Phase) (b : Byte) (idx : Idx)
  deriving DecidableEq, Repr

/-- Why a raw word of the opcode table is no packet. -/
inductive DecodeReject where
  /-- The internal operations of R72 have no encoding: there are no bits to decode. -/
  | noEncoding
  /-- A bit above bit 18 is set: the command port has 19 wires (R60, R61). -/
  | notACommandWord
  deriving DecidableEq, Repr

/-- Field `op` of a command word, bits 18:16 (R61). -/
def opField (w : CmdWord) : BitVec 3 := w.extractLsb' 16 3

/-- Field `data` of a command word, bits 15:0 (R61). -/
def dataField (w : CmdWord) : BitVec 16 := w.extractLsb' 0 16

/-- The mask operand of `ACK`, `data[3:0]`; `data[15:4]` is ignored (R63). -/
def maskField (data : BitVec 16) : BitVec 4 := data.extractLsb' 0 4

/-- Decode a command word from `op` alone (R62, R65). Every word has an operation. -/
def decodeCmd (w : CmdWord) : Instr :=
  match (opField w).toNat with
  | 0 => .nop
  | 1 => .sample (dataField w)
  | 2 => .flush
  | 3 => .clear
  | 4 => .ack (maskField (dataField w))
  | 5 => .reserved5
  | 6 => .reserved6
  | _ => .reserved7

/-- Select one of the eight `submit` cases by `b = 0` or not and by the phase (R67, R111 to R119). -/
def decodeSubmit (p : Phase) (b : Byte) (idx : Idx) : Instr :=
  if b = 0#8 then
    match p with
    | .idle => .submitNIdle idx
    | .headerSearch => .submitNHs idx
    | .readingMessage => .submitNMsg idx
    | .readingEom => .submitNEom idx
  else
    match p with
    | .idle => .submitDIdle b idx
    | .headerSearch => .submitDHs b idx
    | .readingMessage => .submitDMsg b idx
    | .readingEom => .submitDEom b idx

/-- The decoder, total on packets. -/
def decode : Packet → Instr
  | .cmd w => decodeCmd w
  | .frameByte p b idx => decodeSubmit p b idx

/-- Read raw bits as a packet. The table's formats differ in width (R61, opcode table): up to 8 bits
are a value on the frame decoder's input, whose index operand is `w` from bit 8 up and whose case is
selected as after reset, in `Idle` (log 4); more bits are a command word. -/
def packetOfWord (nbits w : Nat) : Except DecodeReject Packet :=
  if nbits = 0 then .error .noEncoding
  else if nbits ≤ 8 then .ok (.frameByte .idle (BitVec.ofNat 8 w) (BitVec.ofNat 64 (w / 256)))
  else if w < 524288 then .ok (.cmd (BitVec.ofNat 19 w))
  else .error .notACommandWord

/-- The decoder on the raw bits of the opcode table. -/
def decodeTableWord (nbits w : Nat) : Option Instr :=
  match packetOfWord nbits w with
  | .ok p => some (decode p)
  | .error _ => none

/-- A command word from its two fields: `op << 16 | data` (R61, R73). -/
def cmdWord (op : BitVec 3) (data : BitVec 16) : CmdWord := op ++ data

/-- The encoder: the canonical word of a command (R73: "an assembler emits 0" for ignored data), the
value and selecting phase of a `submit` case, and nothing for an internal operation (R72). -/
def encode : Instr → Option Packet
  | .nop => some (.cmd (cmdWord 0#3 0#16))
  | .sample x => some (.cmd (cmdWord 1#3 x))
  | .flush => some (.cmd (cmdWord 2#3 0#16))
  | .clear => some (.cmd (cmdWord 3#3 0#16))
  | .ack m => some (.cmd (cmdWord 4#3 (m.setWidth 16)))
  | .reserved5 => some (.cmd (cmdWord 5#3 0#16))
  | .reserved6 => some (.cmd (cmdWord 6#3 0#16))
  | .reserved7 => some (.cmd (cmdWord 7#3 0#16))
  | .table => none
  | .corr _ => none
  | .disc => none
  | .dcd => none
  | .integ => none
  | .dlladj => none
  | .phadv => none
  | .bitdec => none
  | .prelock => none
  | .bytecnt => none
  | .classifyPass => none
  | .classifyFail => none
  | .submitDIdle b idx => some (.frameByte .idle b idx)
  | .submitDHs b idx => some (.frameByte .headerSearch b idx)
  | .submitDMsg b idx => some (.frameByte .readingMessage b idx)
  | .submitDEom b idx => some (.frameByte .readingEom b idx)
  | .submitNIdle idx => some (.frameByte .idle 0#8 idx)
  | .submitNHs idx => some (.frameByte .headerSearch 0#8 idx)
  | .submitNMsg idx => some (.frameByte .readingMessage 0#8 idx)
  | .submitNEom idx => some (.frameByte .readingEom 0#8 idx)

/-- The operations of R72 that have no encoding (opcode table format `INTERNAL`). -/
def isInternal : Instr → Bool
  | .nop => false
  | .sample _ => false
  | .flush => false
  | .clear => false
  | .ack _ => false
  | .reserved5 => false
  | .reserved6 => false
  | .reserved7 => false
  | .table => true
  | .corr _ => true
  | .disc => true
  | .dcd => true
  | .integ => true
  | .dlladj => true
  | .phadv => true
  | .bitdec => true
  | .prelock => true
  | .bytecnt => true
  | .classifyPass => true
  | .classifyFail => true
  | .submitDIdle _ _ => false
  | .submitDHs _ _ => false
  | .submitDMsg _ _ => false
  | .submitDEom _ _ => false
  | .submitNIdle _ => false
  | .submitNHs _ => false
  | .submitNMsg _ => false
  | .submitNEom _ => false

end Sys2Proof
end

