-- ==== Sys2Proof/Machine/State.lean ====
section
/-! DEFINITION. The state of EASDEMOD (10_state.md): plain data, every register of the summary table of
R10, grouped by unit as that table groups them, and the model's own fields, named as such. -/

namespace Sys2Proof.Machine

/-- Why the machine stops with a fault: never. "Nothing the block does can fail, fault, trap or stop
it" (R140), so the type has no constructor. -/
inductive Fault where
  deriving DecidableEq, Repr

/-- Why an instruction has no meaning. -/
inductive Refusal where
  /-- Raised by an arm of `exec` for an instruction without a meaning yet. Safe: a run ends there. No
  arm of this model raises it. -/
  | notModelled (mnemonic : String)
  deriving DecidableEq, Repr

/-- The four event sources (R145); the number is the bit in `evflags` and `ev_out` (R27, R71). -/
inductive Event where
  | hdrStart
  | hdrEnd
  | eomStart
  | eomEnd
  deriving DecidableEq, Repr

/-- The four named conditions (R140 to R144). No register records them. -/
inductive Condition where
  | framingFailure
  | negativeMatch
  | messageSaturated
  | reservedCommand
  deriving DecidableEq, Repr

/-- One entry of the stream of inputs the block has not performed yet (R9, R60, log 1). -/
inductive Input where
  /-- A rising clock edge with `rst` = 1 (R160). -/
  | rst
  /-- An accepted command: the values of `cmd_word` and `time_in` at the accepting edge (R136). -/
  | cmd (word : CmdWord) (time : Time)
  /-- Unit level `TONE` (R73): one decision step of `SYNC` with a given sign and sample index. -/
  | tone (sg : ToneSign) (idx : Idx) (time : Time)
  /-- Unit level `BYTE` or `NULL` (R73): `submit(b, idx)`. -/
  | byte (b : Byte) (idx : Idx) (time : Time)
  deriving DecidableEq, Repr

/-- Correlator Bank registers (R10 to R12). -/
structure Corr where
  /-- `win[0..41]`, the sample delay line; index 0 the oldest (R11). -/
  win : Memory 16
  /-- `fill`: how many cells hold an accepted sample, 0..42 (R11); a range, as the other counters (log 12). -/
  fill : Fin 43
  /-- `nsamp`: samples accepted since reset, modulo 2^64 (R12, R150). -/
  nsamp : Idx
  /-- `cur_idx`: the sample index of the most recent decision step (R12). -/
  curIdx : Idx
  deriving DecidableEq, Repr

/-- Bit Synchronizer registers (R13 to R19). -/
structure Sync where
  /-- `sphase`, the phase accumulator, 0..65535 (R13). -/
  sphase : BitVec 16
  /-- `dcd_shreg`: bit 0 the latest tone decision, bit 1 the one before (R14). -/
  dcdShreg : BitVec 2
  /-- `integ`, signed, -10..10 (R15). -/
  integ : BitVec 5
  /-- `subsamp`, the sub-sample carry counter (R16). -/
  subsamp : BitVec 1
  /-- `lasts`, the eight most recently decided bits (R17). -/
  lasts : BitVec 8
  /-- `bitcnt`, bits decided since the last match or completed byte, 0..7 (R18). -/
  bitcnt : BitVec 3
  /-- `lock`, the synchronization flag (R19). -/
  lock : Bool
  deriving DecidableEq, Repr

/-- Frame Decoder registers (R20 to R22). -/
structure Frame where
  /-- `phase` (R20). -/
  phase : Phase
  /-- `head[0..3]` (R21). -/
  head : Memory 8
  /-- `headlen`, 0..4 (R21). -/
  headlen : Fin 5
  /-- `msg[0..267]` (R22). -/
  msg : Memory 8
  /-- `msglen`, 0..268 (R22). -/
  msglen : Fin 269
  deriving DecidableEq, Repr

/-- Derived outputs (R23 to R26). -/
structure Outs where
  /-- `header_start` (R23). -/
  headerStart : Idx
  /-- `header_end` (R23). -/
  headerEnd : Idx
  /-- `eom_start` (R23). -/
  eomStart : Idx
  /-- `eom_end` (R23). -/
  eomEnd : Idx
  /-- `ts_header` (R24). -/
  tsHeader : Time
  /-- `ts_eom` (R24). -/
  tsEom : Time
  /-- `last_msg[0..271]` (R25). -/
  lastMsg : Memory 8
  /-- `last_msg_len`, 0..272 (R25). -/
  lastMsgLen : Fin 273
  /-- `in_alert` (R26). -/
  inAlert : Bool
  deriving DecidableEq, Repr

/-- Interface registers (R27). -/
structure Iface where
  /-- `evflags[3:0]`, the sticky event flags. -/
  evflags : BitVec 4
  /-- `cmderr`, set by a reserved command. -/
  cmderr : Bool
  deriving DecidableEq, Repr

/-- The MODEL's own fields, no registers of the spec: what an internal operation hands to the next one
of the same decision step (log 7). A decision step writes each before it reads it. -/
structure Wires where
  /-- `mark_I` (R82), a code in the block's own number format. -/
  mi : Int
  /-- `mark_Q` (R82). -/
  mq : Int
  /-- `space_I` (R82). -/
  si : Int
  /-- `space_Q` (R82). -/
  sq : Int
  /-- `sg`, the tone decision (R83). -/
  sg : ToneSign
  /-- `wrapped`, the result of `PHADV` (R94). -/
  wrapped : Bool
  deriving DecidableEq, Repr

/-- The MODEL's own fields, the block's pins (R60) and an observer of the conditions. -/
structure Port where
  /-- The level on `time_in` at the edge that accepted the operation in progress (log 2). -/
  timeIn : Time
  /-- `ev_out`: the event pulses of the latest transition (R60, R145, log 8). -/
  evOut : BitVec 4
  /-- The conditions the latest transition signalled, in order (R140, log 8). -/
  conds : List Condition
  /-- The inputs not performed yet, the next one first (log 1). -/
  inputs : List Input
  deriving DecidableEq, Repr

/-- The whole machine. -/
structure State where
  corr : Corr
  sync : Sync
  frame : Frame
  outs : Outs
  iface : Iface
  wires : Wires
  port : Port
  deriving DecidableEq, Repr

/-- The machine right after reset (R33, R160): every number 0, every buffer empty, `phase = Idle`,
every flag false. The fields of `wires` and `port` are the model's own (logs 1, 2, 7, 8). -/
def State.reset : State where
  corr := { win := [], fill := 0, nsamp := 0#64, curIdx := 0#64 }
  sync := { sphase := 0#16, dcdShreg := 0#2, integ := 0#5, subsamp := 0#1, lasts := 0#8, bitcnt := 0#3, lock := false }
  frame := { phase := .idle, head := [], headlen := 0, msg := [], msglen := 0 }
  outs :=
    { headerStart := 0#64, headerEnd := 0#64, eomStart := 0#64, eomEnd := 0#64,
      tsHeader := 0#64, tsEom := 0#64,
      lastMsg := [], lastMsgLen := 0, inAlert := false }
  iface := { evflags := 0#4, cmderr := false }
  wires := { mi := 0, mq := 0, si := 0, sq := 0, sg := .neither, wrapped := false }
  port := { timeIn := 0#64, evOut := 0#4, conds := [], inputs := [] }

end Sys2Proof.Machine
end

