-- ==== Sys2Proof/Machine/Ops.lean ====
section
/-! DEFINITION. The operations over memory spaces and whole groups of registers that the meanings share.
The block has no exceptions (R140, R147), so there is no operation that takes one and none that
returns: `signal` and the null byte of R99 are what the spec has in their place. -/

namespace Sys2Proof.Machine

/-- `MemRead(space, a)` (00_scope.md section 7): one cell; a cell that is not listed holds 0
(R33, log 13). -/
def memRead {w : Nat} : Memory w → Nat → BitVec w
  | [], _ => 0#w
  | (b, u) :: m, a => if a = b then u else memRead m a

/-- `MemWrite(space, a, v)` (00_scope.md section 7): one cell, keeping the list canonical. -/
def memWrite {w : Nat} : Memory w → Nat → BitVec w → Memory w
  | [], a, v => if v = 0#w then [] else [(a, v)]
  | (b, u) :: m, a, v =>
    if a < b then (if v = 0#w then (b, u) :: m else (a, v) :: (b, u) :: m)
    else if a = b then (if v = 0#w then m else (a, v) :: m)
    else (b, u) :: memWrite m a v

/-- The canonical form of a memory space of `size` cells: indices strictly rising and in range, no
listed cell 0. -/
abbrev Memory.wf {w : Nat} (size : Nat) (m : Memory w) : Prop :=
  m.Pairwise (fun c d => c.1 < d.1) ∧ ∀ c ∈ m, c.1 < size ∧ c.2 ≠ 0#w

/-- Write `vs` to the cells from index `a` on, one by one. -/
def memFill {w : Nat} (m : Memory w) (a : Nat) : List (BitVec w) → Memory w
  | [] => m
  | v :: vs => memFill (memWrite m a v) (a + 1) vs

/-- The first `n` cells of a space, index 0 first. -/
def memCells {w : Nat} (m : Memory w) (n : Nat) : List (BitVec w) := (List.range n).map (memRead m)

/-- Step 1 of R131: shift `WIN` by one, oldest out, and store `x` as the newest. -/
def shiftWin (win : Memory 16) (x : Sample) : Memory 16 :=
  memWrite ((List.range (Config.corrLen - 1)).foldl (fun m i => memWrite m i (memRead m (i + 1))) win)
    (Config.corrLen - 1) x

/-- `CLEARFRAME` (R110): both lengths 0 and every cell of `HEAD` and `MSG` 0. -/
def clearFrame (s : State) : State :=
  { s with frame.head := [], frame.headlen := 0, frame.msg := [], frame.msglen := 0 }

/-- The phase change of the frame decoder, "the block's only form of control transfer" (R120). -/
def setPhase (p : Phase) (s : State) : State := { s with frame.phase := p }

/-- `signal C` (00_scope.md section 7): the condition occurred; no register changes. -/
def signal (c : Condition) (s : State) : State := { s with port.conds := s.port.conds ++ [c] }

/-- What `rst` and `CLEAR` do to every register (R133, R160, R161): each takes its reset value and no
event is emitted. The host's pins, `time_in` and the stream of inputs, are not the block's to change. -/
def resetRegisters (s : State) : State :=
  { State.reset with port.timeIn := s.port.timeIn, port.inputs := s.port.inputs }

end Sys2Proof.Machine
end

