-- ==== Sys2Proof/Machine/Operands.lean ====
section
/-! DEFINITION. Operand forms: sample values, the window, byte classes, the header window, the message
text. -/

namespace Sys2Proof.Machine

/-- `sint16(w)` (00_scope.md section 7, R63): the signed value of a 16-bit word. -/
def sint16 (w : Sample) : Int := if w.toNat < 32768 then (w.toNat : Int) else (w.toNat : Int) - 65536

/-- The upstream byte form of a sample, low byte first (R41, outside the block, log 18). -/
def sampleOfBytes (lo hi : Byte) : Sample := hi ++ lo

/-- The window of a decision step: `WIN[0..41]`, oldest first (R81, R86). -/
def window (s : State) : List Sample := memCells s.corr.win Config.corrLen

/-- `ALLOWED(b)` (R66): 0x09 to 0x0D and 0x20 to 0x7E. -/
def allowed (b : Byte) : Bool :=
  (decide (9 ≤ b.toNat) && decide (b.toNat ≤ 13)) || (decide (32 ≤ b.toNat) && decide (b.toNat ≤ 126))

/-- The four bytes of the header window, `head[0..3]` (R21, R42). -/
def headBytes (s : State) : List Byte := memCells s.frame.head Config.headLen

/-- The stored message text, `msg[0..msglen-1]` (R22, R118: by the length counter). -/
def msgBytes (s : State) : List Byte := memCells s.frame.msg s.frame.msglen.val

/-- The number of bytes up to and including the last hyphen, 0 where there is none (R118). -/
def lastHyphenEnd : List Byte → Nat
  | [] => 0
  | b :: bs =>
    if lastHyphenEnd bs ≠ 0 then lastHyphenEnd bs + 1
    else if b = Config.hyphen then 1 else 0

/-- The text cut after its last hyphen; the whole text where there is none (R118). -/
def truncateText (text : List Byte) : List Byte :=
  if lastHyphenEnd text = 0 then text else text.take (lastHyphenEnd text)

/-- The message of R118: `"ZCZC"` and the truncated text. -/
def composedMessage (s : State) : List Byte := Config.hdrBegin ++ truncateText (msgBytes s)

end Sys2Proof.Machine
end

