-- ==== Sys2Proof/Machine/Correlator.lean ====
section
/-! DEFINITION. The Correlator Bank: `TABLE`, `CORR`, `DISC` (40_correlator.md). -/

namespace Sys2Proof.Machine

/-- `correlate(x, offset, ref, L)` of the window against one table (R81). The block's arithmetic is the
OPEN parameter `NUMERICS` (R85): a free value, but 0 for the all-zero window, which holds "of any
arithmetic in which 0·t = 0 and 0 + 0 = 0" (R85, log 6). -/
def correlate (x : List Sample) (ref : RefTable) : Int :=
  if x.all (fun v => v == 0#16) then 0 else Config.dotProduct x (Config.tableOf ref)

/-- The sign of the discriminant `f` of R82 from its four correlations: free (R85, log 6), but neither
where all four are 0. -/
def signOf (mi mq si sq : Int) : ToneSign :=
  if mi = 0 ∧ mq = 0 ∧ si = 0 ∧ sq = 0 then .neither else Config.discriminantSign mi mq si sq

/-- `NUMERICS.toneSign` (R83, R85) of a window. -/
def toneSign (x : List Sample) : ToneSign :=
  signOf (correlate x .markI) (correlate x .markQ) (correlate x .spaceI) (correlate x .spaceQ)

/-- One correlation (R81): its result goes to the wire of that table. -/
def corr (ref : RefTable) (s : State) : State :=
  match ref with
  | .markI => { s with wires.mi := correlate (window s) .markI }
  | .markQ => { s with wires.mq := correlate (window s) .markQ }
  | .spaceI => { s with wires.si := correlate (window s) .spaceI }
  | .spaceQ => { s with wires.sq := correlate (window s) .spaceQ }

/-- The sign of the discriminant from the four wires (R82, R83). -/
def decideTone (s : State) : State :=
  { s with wires.sg := signOf s.wires.mi s.wires.mq s.wires.si s.wires.sq }

/-- `DISC` (R82): four correlations against the current window, then the sign. -/
def disc (s : State) : State :=
  decideTone (corr .spaceQ (corr .spaceI (corr .markQ (corr .markI s))))

/-- `TABLE` (R80): fills the four tables, once, when the block is built. Its result is the constant
`Config.tableOf`; R29 keeps the tables out of the state and R49 lets nothing write them, so the state
stays as it is (log 9). -/
def execTable (s : State) : Host.Outcome State Fault Refusal := .next s

/-- `CORR` (R81). -/
def execCorr (ref : RefTable) (s : State) : Host.Outcome State Fault Refusal := .next (corr ref s)

/-- `DISC` (R82, R83). -/
def execDisc (s : State) : Host.Outcome State Fault Refusal := .next (disc s)

end Sys2Proof.Machine
end

