-- ==== Sys2Proof/Machine/Flags.lean ====
section
/-! DEFINITION. Event flags, condition codes and the `STATUS` word. -/

namespace Sys2Proof.Machine

/-- The event number (R71, R145). -/
def eventNumber : Event → Nat
  | .hdrStart => 0
  | .hdrEnd => 1
  | .eomStart => 2
  | .eomEnd => 3

/-- The bit of an event in `evflags` and `ev_out` (R27). -/
def eventBit (e : Event) : BitVec 4 := 1#4 <<< eventNumber e

/-- `emit E` (R145): set the sticky flag and pulse the output. -/
def emit (e : Event) (s : State) : State :=
  { s with iface.evflags := s.iface.evflags ||| eventBit e, port.evOut := s.port.evOut ||| eventBit e }

/-- The code of a condition (R140); the hardware records it nowhere. -/
def conditionCode : Condition → Nat
  | .framingFailure => 1
  | .negativeMatch => 2
  | .messageSaturated => 3
  | .reservedCommand => 4

/-- What a reserved command does (R135): `cmderr` is set, nothing else changes (log 19). -/
def reservedCommand (s : State) : State := signal .reservedCommand { s with iface.cmderr := true }

/-- The encoding of the phase (R20, R71). -/
def phaseCode : Phase → BitVec 2
  | .idle => 0#2
  | .headerSearch => 1#2
  | .readingMessage => 2#2
  | .readingEom => 3#2

/-- The `STATUS` word (R31): bit 0 `LOCK`, 2:1 `PHASE`, 3 `IN_ALERT`, 7:4 the event flags, 8 `CMDERR`,
63:9 read as 0. -/
def statusWord (s : State) : BitVec 64 :=
  0#55 ++ BitVec.ofBool s.iface.cmderr ++ s.iface.evflags ++ BitVec.ofBool s.outs.inAlert
    ++ phaseCode s.frame.phase ++ BitVec.ofBool s.sync.lock

end Sys2Proof.Machine
end

