-- ==== Sys2Proof/Machine/FrameDecoder.lean ====
section
/-! DEFINITION. The Frame Decoder: the eight `SUBMIT` cases (42_frame.md). -/

namespace Sys2Proof.Machine

/-- The header window comparison (R113). -/
def compareHeader (idx : Idx) (s : State) : State :=
  if headBytes s = Config.hdrBegin then
    emit .hdrStart (setPhase .readingMessage
      (clearFrame { s with outs.headerStart := idx, outs.inAlert := true }))
  else if headBytes s = Config.eom then
    emit .eomStart (setPhase .readingEom (clearFrame { s with outs.eomStart := idx }))
  else setPhase .idle (clearFrame (signal .negativeMatch s))

/-- Append a byte to `HEAD` where there is room (R112). -/
def appendHead (b : Byte) (s : State) : State :=
  if s.frame.headlen.val < Config.headLen then
    { s with
      frame.head := memWrite s.frame.head s.frame.headlen.val b
      frame.headlen := s.frame.headlen + 1 }
  else s

/-- `SUBMIT.D.HS` (R112): append, and compare when the window is full (also where it was
full before, log 5). -/
def headerByte (b : Byte) (idx : Idx) (s : State) : State :=
  if (appendHead b s).frame.headlen.val = Config.headLen then compareHeader idx (appendHead b s)
  else appendHead b s

/-- `SUBMIT.D.IDLE` (R111): to `HeaderSearch`, then R112 with the same byte. -/
def firstByte (b : Byte) (idx : Idx) (s : State) : State := headerByte b idx (setPhase .headerSearch s)

/-- `SUBMIT.D.MSG` (R114): append below the cap, drop above it. -/
def messageByte (b : Byte) (s : State) : State :=
  if s.frame.msglen.val < Config.msgCap then
    { s with
      frame.msg := memWrite s.frame.msg s.frame.msglen.val b
      frame.msglen := s.frame.msglen + 1 }
  else signal .messageSaturated s

/-- `SUBMIT.N.HS` (R117): discard the partial window. -/
def abortHeader (s : State) : State := setPhase .idle (clearFrame s)

/-- `SUBMIT.N.MSG` (R118): the header message is complete. -/
def completeMessage (idx : Idx) (s : State) : State :=
  emit .hdrEnd (setPhase .idle (clearFrame { s with
    outs.lastMsg := memFill [] 0 (composedMessage s)
    outs.lastMsgLen := Fin.ofNat 273 (composedMessage s).length
    outs.headerEnd := idx
    outs.tsHeader := s.port.timeIn }))

/-- `SUBMIT.N.EOM` (R119): the end of message is complete. -/
def completeEom (idx : Idx) (s : State) : State :=
  emit .eomEnd (setPhase .idle (clearFrame { s with
    outs.eomEnd := idx
    outs.tsEom := s.port.timeIn
    outs.inAlert := false }))

/-- `submit(b, idx)` (42_frame.md): select the case by `b = 0` or not and by the phase (R67). -/
def submit (b : Byte) (idx : Idx) (s : State) : State :=
  if b = 0#8 then
    match s.frame.phase with
    | .idle => s
    | .headerSearch => abortHeader s
    | .readingMessage => completeMessage idx s
    | .readingEom => completeEom idx s
  else
    match s.frame.phase with
    | .idle => firstByte b idx s
    | .headerSearch => headerByte b idx s
    | .readingMessage => messageByte b s
    | .readingEom => s

/-- `SUBMIT.D.IDLE` (R111). -/
def execSubmitDIdle (b : Byte) (idx : Idx) (s : State) : Host.Outcome State Fault Refusal :=
  .next (firstByte b idx s)

/-- `SUBMIT.D.HS` (R112, R113). -/
def execSubmitDHs (b : Byte) (idx : Idx) (s : State) : Host.Outcome State Fault Refusal :=
  .next (headerByte b idx s)

/-- `SUBMIT.D.MSG` (R114); `idx` is unused. -/
def execSubmitDMsg (b : Byte) (_idx : Idx) (s : State) : Host.Outcome State Fault Refusal :=
  .next (messageByte b s)

/-- `SUBMIT.D.EOM` (R115): the byte is discarded; no state changes. -/
def execSubmitDEom (_b : Byte) (_idx : Idx) (s : State) : Host.Outcome State Fault Refusal := .next s

/-- `SUBMIT.N.IDLE` (R116): no-op. -/
def execSubmitNIdle (_idx : Idx) (s : State) : Host.Outcome State Fault Refusal := .next s

/-- `SUBMIT.N.HS` (R117); `idx` is unused. -/
def execSubmitNHs (_idx : Idx) (s : State) : Host.Outcome State Fault Refusal := .next (abortHeader s)

/-- `SUBMIT.N.MSG` (R118). -/
def execSubmitNMsg (idx : Idx) (s : State) : Host.Outcome State Fault Refusal :=
  .next (completeMessage idx s)

/-- `SUBMIT.N.EOM` (R119). -/
def execSubmitNEom (idx : Idx) (s : State) : Host.Outcome State Fault Refusal :=
  .next (completeEom idx s)

end Sys2Proof.Machine
end

