-- ==== Sys2Proof/Machine/BitSync.lean ====
section
/-! DEFINITION. The Bit Synchronizer: `DCD` to `CLASSIFY` and the decision step (41_bitsync.md). -/

namespace Sys2Proof.Machine

/-- `DCD` (R91): shift `f > 0` into `dcd_shreg`. -/
def dcd (s : State) : State :=
  { s with sync.dcdShreg := s.sync.dcdShreg.extractLsb' 0 1 ++ BitVec.ofBool (s.wires.sg == .mark) }

/-- `INTEG` (R92): the saturating integrator. -/
def integ (s : State) : State :=
  match s.wires.sg with
  | .mark =>
    if s.sync.integ.toInt < Config.integMax then { s with sync.integ := s.sync.integ + 1#5 } else s
  | .space =>
    if -Config.integMax < s.sync.integ.toInt then { s with sync.integ := s.sync.integ - 1#5 } else s
  | .neither => s

/-- The size of one correction for a distance `d` from the ideal (R93): half of it, rounded down,
capped at `MAX_STEP`. -/
def correction (d : Nat) : Nat := min (d * Config.gainNum / Config.gainDen) Config.maxStep

/-- The corrected phase after a transition (R93). -/
def nudged (p : Nat) : Nat :=
  if p < Config.centreThr then
    (if Config.lowGuard < p then p - correction p else p)
  else if p < Config.highGuard then p + correction (Config.phaseMod - p)
  else p

/-- A transition: the two most recent decisions differ (R93). -/
def transition (s : State) : Bool := s.sync.dcdShreg.getLsbD 0 ^^ s.sync.dcdShreg.getLsbD 1

/-- `DLLADJ` (R93): on a transition, nudge the phase. -/
def dlladj (s : State) : State :=
  if transition s then { s with sync.sphase := BitVec.ofNat 16 (nudged s.sync.sphase.toNat) } else s

/-- What the accumulator holds after a wrap to `t` (R94, R6 `WRAP`). -/
def afterWrap (t : Nat) : Nat :=
  match Config.wrap with
  | .modulo => t - Config.phaseMod
  | .resetTo c => c

/-- Whether the advance from phase `p` wraps (R94). -/
def wraps (p : Nat) : Bool := decide (Config.phaseMod ≤ p + Config.phaseInc)

/-- The phase after the advance from `p` (R94). -/
def advanced (p : Nat) : Nat :=
  if wraps p then afterWrap (p + Config.phaseInc) else p + Config.phaseInc

/-- `PHADV` (R94): advance the phase by `PHASE_INC`; the wire `wrapped` says whether it wrapped. -/
def phadv (s : State) : State :=
  { s with
    sync.sphase := BitVec.ofNat 16 (advanced s.sync.sphase.toNat)
    wires.wrapped := wraps s.sync.sphase.toNat }

/-- The decided bit (R95): `integ >= 0` is bit 1. -/
def decidedBit (s : State) : Bool := decide (0 ≤ s.sync.integ.toInt)

/-- Shift one bit into `lasts` (R95, R6 `BIT_ORDER`). -/
def shiftLasts (bit : Bool) (lasts : BitVec 8) : BitVec 8 :=
  match Config.bitOrder with
  | .enterMsbShiftRight => BitVec.ofBool bit ++ lasts.extractLsb' 1 7
  | .enterLsbShiftLeft => lasts.extractLsb' 0 7 ++ BitVec.ofBool bit

/-- `BITDEC` (R95): decide one bit. `integ` is not changed. -/
def bitdec (s : State) : State := { s with sync.lasts := shiftLasts (decidedBit s) s.sync.lasts }

/-- `CLASSIFY` of an allowed byte (R98); `idx` is the index of the decision step, `cur_idx` (R12);
guarded as the rule is (log 5). -/
def classifyPass (s : State) : State :=
  if allowed s.sync.lasts then submit s.sync.lasts s.corr.curIdx s else s

/-- `CLASSIFY` of a byte that is not allowed (R99): framing failure, loss of lock, then the null byte;
guarded as the rule is (log 5). -/
def classifyFail (s : State) : State :=
  if allowed s.sync.lasts then s
  else submit 0#8 s.corr.curIdx { signal .framingFailure s with sync.lock := false }

/-- `CLASSIFY(lasts)` (R97): R98 or R99. -/
def classify (s : State) : State := if allowed s.sync.lasts then classifyPass s else classifyFail s

/-- `BYTECNT` (R97): while locked, count bits; the eighth completes a byte. -/
def bytecnt (s : State) : State :=
  if s.sync.lock then
    (if s.sync.bitcnt.toNat + 1 = 8 then { classify s with sync.bitcnt := 0#3 }
     else { s with sync.bitcnt := s.sync.bitcnt + 1#3 })
  else s

/-- `PRELOCK` (R96): preamble match outside `ReadingMessage`, or else R97. -/
def prelock (s : State) : State :=
  if s.sync.lasts = Config.preamble ∧ s.frame.phase ≠ .readingMessage then
    { s with sync.lock := true, sync.bitcnt := 0#3 }
  else bytecnt s

/-- The decision step from step 2 on (R90), with the tone decision on the wire `sg`. -/
def stepFromTone (s : State) : State :=
  let u := phadv (dlladj (integ (dcd s)))
  if u.wires.wrapped then prelock (bitdec u) else u

/-- The decision step (R90): `cur_idx`, `DISC`, then the rest in the fixed order. -/
def decisionStep (idx : Idx) (s : State) : State := stepFromTone (disc { s with corr.curIdx := idx })

/-- Unit level `TONE` (R73): a decision step with a given sign in place of `DISC` (log 3). -/
def toneStep (sg : ToneSign) (idx : Idx) (s : State) : State :=
  stepFromTone { s with corr.curIdx := idx, wires.sg := sg }

/-- `DCD` (R91). -/
def execDcd (s : State) : Host.Outcome State Fault Refusal := .next (dcd s)

/-- `INTEG` (R92). -/
def execInteg (s : State) : Host.Outcome State Fault Refusal := .next (integ s)

/-- `DLLADJ` (R93). -/
def execDlladj (s : State) : Host.Outcome State Fault Refusal := .next (dlladj s)

/-- `PHADV` (R94). -/
def execPhadv (s : State) : Host.Outcome State Fault Refusal := .next (phadv s)

/-- `BITDEC` (R95). -/
def execBitdec (s : State) : Host.Outcome State Fault Refusal := .next (bitdec s)

/-- `PRELOCK` (R96). -/
def execPrelock (s : State) : Host.Outcome State Fault Refusal := .next (prelock s)

/-- `BYTECNT` (R97). -/
def execBytecnt (s : State) : Host.Outcome State Fault Refusal := .next (bytecnt s)

/-- `CLASSIFY.PASS` (R98). -/
def execClassifyPass (s : State) : Host.Outcome State Fault Refusal := .next (classifyPass s)

/-- `CLASSIFY.FAIL` (R99). -/
def execClassifyFail (s : State) : Host.Outcome State Fault Refusal := .next (classifyFail s)

end Sys2Proof.Machine
end

