-- ==== Sys2Proof/Machine/HostCommands.lean ====
section
/-! DEFINITION. The host commands (43_host_commands.md). -/

namespace Sys2Proof.Machine

/-- Whether this sample completes a window (R131 step 2): the first full window, or every `SUBSAMP`-th
sample after it. -/
def fires (s : State) : Bool :=
  if s.corr.fill.val < Config.corrLen then decide (s.corr.fill.val + 1 = Config.corrLen)
  else decide (s.sync.subsamp.toNat + 1 = Config.subsamp)

/-- `fill` after this sample (R131 step 2): up by one, saturating at `L`. -/
def nextFill (s : State) : Fin 43 :=
  if s.corr.fill.val < Config.corrLen then s.corr.fill + 1 else s.corr.fill

/-- `subsamp` after this sample (R131 step 2): 0 where a window is complete, otherwise counted only once
the window is full. -/
def nextSubsamp (s : State) : BitVec 1 :=
  if fires s then 0#1
  else if s.corr.fill.val < Config.corrLen then s.sync.subsamp
  else s.sync.subsamp + 1#1

/-- Steps 1 to 3 of R131: take the sample in. -/
def acceptSample (x : Sample) (s : State) : State :=
  { s with
    corr.win := shiftWin s.corr.win x
    corr.fill := nextFill s
    corr.nsamp := s.corr.nsamp + 1#64
    sync.subsamp := nextSubsamp s }

/-- `SAMPLE` (R131): take the sample in and, if it completes a window, perform a decision step with the
stream index of `WIN[0]`. -/
def sample (x : Sample) (s : State) : State :=
  if fires s then
    decisionStep ((acceptSample x s).corr.nsamp - BitVec.ofNat 64 Config.corrLen) (acceptSample x s)
  else acceptSample x s

/-- `FLUSH` (R132): `submit(0, cur_idx)`. -/
def flush (s : State) : State := submit 0#8 s.corr.curIdx s

/-- `ACK` (R134): clear the flags selected by the mask. -/
def acknowledge (mask : BitVec 4) (s : State) : State :=
  { s with iface.evflags := s.iface.evflags &&& ~~~mask }

/-- `NOP` (R130). -/
def execNop (s : State) : Host.Outcome State Fault Refusal := .next s

/-- `SAMPLE` (R131). -/
def execSample (x : Sample) (s : State) : Host.Outcome State Fault Refusal := .next (sample x s)

/-- `FLUSH` (R132). -/
def execFlush (s : State) : Host.Outcome State Fault Refusal := .next (flush s)

/-- `CLEAR` (R133): the same effect as `rst`. -/
def execClear (s : State) : Host.Outcome State Fault Refusal := .next (resetRegisters s)

/-- `ACK` (R134). -/
def execAck (mask : BitVec 4) (s : State) : Host.Outcome State Fault Refusal :=
  .next (acknowledge mask s)

/-- Reserved command 5 (R135). -/
def execReserved5 (s : State) : Host.Outcome State Fault Refusal := .next (reservedCommand s)

/-- Reserved command 6 (R135). -/
def execReserved6 (s : State) : Host.Outcome State Fault Refusal := .next (reservedCommand s)

/-- Reserved command 7 (R135). -/
def execReserved7 (s : State) : Host.Outcome State Fault Refusal := .next (reservedCommand s)

end Sys2Proof.Machine
end

