-- ==== Sys2Proof/Machine/Dispatch.lean ====
section
/-! DEFINITION. The meaning of every operation: one arm per constructor of `Instr`. -/

namespace Sys2Proof.Machine

def exec (i : Instr) (s : State) : Host.Outcome State Fault Refusal :=
  match i with
  | .nop => Sys2Proof.Machine.execNop s
  | .sample x => Sys2Proof.Machine.execSample x s
  | .flush => Sys2Proof.Machine.execFlush s
  | .clear => Sys2Proof.Machine.execClear s
  | .ack mask => Sys2Proof.Machine.execAck mask s
  | .reserved5 => Sys2Proof.Machine.execReserved5 s
  | .reserved6 => Sys2Proof.Machine.execReserved6 s
  | .reserved7 => Sys2Proof.Machine.execReserved7 s
  | .table => Sys2Proof.Machine.execTable s
  | .corr ref => Sys2Proof.Machine.execCorr ref s
  | .disc => Sys2Proof.Machine.execDisc s
  | .dcd => Sys2Proof.Machine.execDcd s
  | .integ => Sys2Proof.Machine.execInteg s
  | .dlladj => Sys2Proof.Machine.execDlladj s
  | .phadv => Sys2Proof.Machine.execPhadv s
  | .bitdec => Sys2Proof.Machine.execBitdec s
  | .prelock => Sys2Proof.Machine.execPrelock s
  | .bytecnt => Sys2Proof.Machine.execBytecnt s
  | .classifyPass => Sys2Proof.Machine.execClassifyPass s
  | .classifyFail => Sys2Proof.Machine.execClassifyFail s
  | .submitDIdle b idx => Sys2Proof.Machine.execSubmitDIdle b idx s
  | .submitDHs b idx => Sys2Proof.Machine.execSubmitDHs b idx s
  | .submitDMsg b idx => Sys2Proof.Machine.execSubmitDMsg b idx s
  | .submitDEom b idx => Sys2Proof.Machine.execSubmitDEom b idx s
  | .submitNIdle idx => Sys2Proof.Machine.execSubmitNIdle idx s
  | .submitNHs idx => Sys2Proof.Machine.execSubmitNHs idx s
  | .submitNMsg idx => Sys2Proof.Machine.execSubmitNMsg idx s
  | .submitNEom idx => Sys2Proof.Machine.execSubmitNEom idx s

end Sys2Proof.Machine
end

