-- ==== Sys2Proof/Machine/Fetch.lean ====
section
/-! DEFINITION. What the block takes from its inputs before it performs an operation (R9, R136). -/

namespace Sys2Proof.Machine

/-- The pulses and the observed conditions of the transition before are over (R60: a pulse lasts one
clock). -/
def quiet (s : State) : State := { s with port.evOut := 0#4, port.conds := [] }

/-- The state in which an accepted operation runs: `t` on `time_in`, `rest` still to come. -/
def accepted (t : Time) (rest : List Input) (s : State) : State :=
  { quiet s with port.timeIn := t, port.inputs := rest }

/-- One clock edge with `rst` = 1 (R160): every register at its reset value, no event. -/
def hardReset (rest : List Input) (s : State) : State :=
  resetRegisters (accepted s.port.timeIn rest s)

/-- The input that stands for raw bits of the opcode table, with the level `t` on `time_in`; none where
the decoder refuses the bits. -/
def inputOfWord (nbits w : Nat) (t : Time) : Option Input :=
  match packetOfWord nbits w with
  | .ok (.cmd word) => some (.cmd word t)
  | .ok (.frameByte _ b idx) => some (.byte b idx t)
  | .error _ => none

/-- The inputs with that one in front. -/
def inputsWithWord (nbits w : Nat) (s : State) : List Input :=
  match inputOfWord nbits w s.port.timeIn with
  | some i => i :: s.port.inputs
  | none => s.port.inputs

end Sys2Proof.Machine
end

