-- ==== Sys2Proof/Machine/Step.lean ====
section
/-! DEFINITION. One step: perform the next input, one atomic transition (R9, R46, R136). -/

namespace Sys2Proof.Machine

/-- One step. With no input the block holds its state (R152). A command runs the operation its word
decodes to; a unit-level byte runs the `submit` case its value and the phase select; `rst` resets. -/
def step (s : State) : Host.Outcome State Fault Refusal :=
  match s.port.inputs with
  | [] => .next (quiet s)
  | .rst :: rest => .next (hardReset rest s)
  | .cmd w t :: rest => exec (decode (.cmd w)) (accepted t rest s)
  | .tone sg idx t :: rest => .next (toneStep sg idx (accepted t rest s))
  | .byte b idx t :: rest => exec (decode (.frameByte s.frame.phase b idx)) (accepted t rest s)

/-- The state with the raw bits of the opcode table placed as the next input, `time_in` unchanged
(logs 1, 4). Bits the decoder refuses place nothing. -/
def State.withFetchWord (s : State) (nbits w : Nat) : State :=
  { s with port.inputs := inputsWithWord nbits w s }

end Sys2Proof.Machine
end

