-- ==== Sys2Proof/Machine/ReadPort.lean ====
section
/-! DEFINITION. The read port (R30, R47): `rd_data` as a function of the state between commands. It is
a function and no operation: a read has no side effect (R44). -/

namespace Sys2Proof.Machine

/-- `rd_data` at `rd_addr` = `a` (R30). Registers are zero-extended, the signed `integ` and `win` are
sign-extended; any other address reads 0. -/
def readPort (s : State) (a : BitVec 12) : BitVec 64 :=
  match a.toNat with
  | 0x000 => statusWord s
  | 0x001 => s.sync.sphase.setWidth 64
  | 0x002 => s.sync.dcdShreg.setWidth 64
  | 0x003 => s.sync.integ.signExtend 64
  | 0x004 => s.sync.subsamp.setWidth 64
  | 0x005 => s.sync.lasts.setWidth 64
  | 0x006 => s.sync.bitcnt.setWidth 64
  | 0x007 => BitVec.ofNat 64 s.frame.headlen.val
  | 0x008 => BitVec.ofNat 64 s.frame.msglen.val
  | 0x009 => s.corr.nsamp
  | 0x00A => s.corr.curIdx
  | 0x00B => s.outs.headerStart
  | 0x00C => s.outs.headerEnd
  | 0x00D => s.outs.eomStart
  | 0x00E => s.outs.eomEnd
  | 0x00F => s.outs.tsHeader
  | 0x010 => s.outs.tsEom
  | 0x011 => BitVec.ofNat 64 s.outs.lastMsgLen.val
  | 0x012 => BitVec.ofNat 64 s.corr.fill.val
  | n =>
    if 0x100 ≤ n ∧ n < 0x100 + Config.headLen then (memRead s.frame.head (n - 0x100)).setWidth 64
    else if 0x200 ≤ n ∧ n < 0x200 + Config.msgCap then (memRead s.frame.msg (n - 0x200)).setWidth 64
    else if 0x400 ≤ n ∧ n < 0x400 + Config.lastMsgCap then
      (memRead s.outs.lastMsg (n - 0x400)).setWidth 64
    else if 0x600 ≤ n ∧ n < 0x600 + Config.corrLen then
      (memRead s.corr.win (n - 0x600)).signExtend 64
    else 0#64

end Sys2Proof.Machine
end

