-- ==== Sys2Proof/Machine/Assembler.lean ====
section
/-! DEFINITION. The assembler notation of R73: command lines with an optional `@time`, and the
pseudo-instructions that expand to commands. -/

namespace Sys2Proof.Machine

/-- One line of R73: a command and its `@<time>` suffix where it has one. -/
structure AsmLine where
  instr : Instr
  time : Option Time
  deriving DecidableEq, Repr

/-- `SAMPLES v0 v1 … vn` (R73). -/
def asmSamples (vs : List Sample) : List AsmLine := vs.map (fun v => ⟨.sample v, none⟩)

/-- `SILENCE n` (R73). -/
def asmSilence (n : Nat) : List AsmLine := asmSamples (List.replicate n 0#16)

/-- The inputs a program gives, where `t` is the time of the line before: a line without a time keeps
it (R73). A line whose operation has no command word gives none. -/
def assembleFrom (t : Time) : List AsmLine → List Input
  | [] => []
  | l :: ls =>
    match encode l.instr with
    | some (.cmd w) => .cmd w (l.time.getD t) :: assembleFrom (l.time.getD t) ls
    | _ => assembleFrom (l.time.getD t) ls

/-- The inputs of a program; the time is 0 at the start (R73). -/
def assemble (ls : List AsmLine) : List Input := assembleFrom 0 ls

/-- The host offers a program: its inputs follow those not performed yet (log 1). -/
def offer (ls : List AsmLine) (s : State) : State :=
  { s with port.inputs := s.port.inputs ++ assemble ls }

end Sys2Proof.Machine
end

