-- ==== Sys2Proof/Machine/Reference.lean ====
section
/-! DEFINITION. The exact-real reference of the Correlator Bank (R80 to R84), which `NUMERICS` approximates,
and the test signal generator `AFSK` of R73. Both are stated over the real numbers, so Lean cannot run them,
and nothing the machine runs depends on them: the block's own `toneSign` is `Sys2Proof.Machine.toneSign`
(R85, logs 6 and 17). -/

namespace Sys2Proof.Machine

/-- The phase increment per table entry of a tone of `tenths` tenths of a hertz: `2*pi*f/FS` (R80). -/
noncomputable def refIncrement (tenths : Nat) : ℝ :=
  2 * Real.pi * ((tenths : ℝ) / 10) / (Config.fs : ℝ)

/-- Entry `i` of a reference table in exact arithmetic (R80), the mark tone's running phase starting at
`pm` and the space tone's at `ps`. R80 starts both at 0. -/
noncomputable def refEntry (pm ps : ℝ) : RefTable → Nat → ℝ
  | .markI, i => Real.cos (refIncrement Config.fMarkTenths * i + pm)
  | .markQ, i => Real.sin (refIncrement Config.fMarkTenths * i + pm)
  | .spaceI, i => Real.cos (refIncrement Config.fSpaceTenths * i + ps)
  | .spaceQ, i => Real.sin (refIncrement Config.fSpaceTenths * i + ps)

/-- `correlate` (R81) in exact arithmetic: the dot product of `L` sample values against a table. -/
noncomputable def refCorrelate (pm ps : ℝ) (x : Nat → ℝ) (ref : RefTable) : ℝ :=
  ∑ i ∈ Finset.range Config.corrLen, x i * refEntry pm ps ref i

/-- The discriminant `f` of R82 in exact arithmetic. -/
noncomputable def refDiscriminant (pm ps : ℝ) (x : Nat → ℝ) : ℝ :=
  (refCorrelate pm ps x .markI ^ 2 + refCorrelate pm ps x .markQ ^ 2)
    - (refCorrelate pm ps x .spaceI ^ 2 + refCorrelate pm ps x .spaceQ ^ 2)

/-- The sample values of the window: `SCALE * MemRead(WIN, i)` (R81). -/
noncomputable def sampleValues (scale : ℝ) (win : Memory 16) (i : Nat) : ℝ :=
  scale * (sint16 (memRead win i) : ℝ)

/-- `sgn` of a real number as a tone decision (R83). -/
noncomputable def signOfReal (f : ℝ) : ToneSign :=
  if 0 < f then .mark else if f < 0 then .space else .neither

/-- The reference `toneSign` of R83. -/
noncomputable def refToneSign (scale : ℝ) (win : Memory 16) : ToneSign :=
  signOfReal (refDiscriminant 0 0 (sampleValues scale win))

/-! ### The test signal generator `AFSK` (R73, 95_test_vectors.md section 5.1, log 18) -/

/-- Which bit of the burst sample `m` belongs to: `floor(m * BAUD / FS)`. -/
def afskBitIndex (m : Nat) : Nat := m * Config.baudHundredths / (Config.fs * 100)

/-- Bit `k` of a byte string, each byte least significant bit first. -/
def afskBit (bytes : List Byte) (k : Nat) : Bool := (bytes.getD (k / 8) 0#8).getLsbD (k % 8)

/-- The number of samples of a burst of `n` bytes: the first `m` whose bit is beyond the last. -/
def afskLength (n : Nat) : Nat :=
  (8 * n * (Config.fs * 100) + Config.baudHundredths - 1) / Config.baudHundredths

/-- The running phase at sample `m`. -/
noncomputable def afskPhase (bytes : List Byte) (m : Nat) : ℝ :=
  ∑ j ∈ Finset.range m,
    refIncrement (if afskBit bytes (afskBitIndex j) then Config.fMarkTenths else Config.fSpaceTenths)

/-- Sample `m`: `floor(amp * sin(ph) + 0.5)`. -/
noncomputable def afskSample (amp : ℝ) (bytes : List Byte) (m : Nat) : Sample :=
  BitVec.ofInt 16 ⌊amp * Real.sin (afskPhase bytes m) + 1 / 2⌋

/-- `AFSK amp "bytes"`: the `SAMPLE` lines of the burst. -/
noncomputable def asmAfsk (amp : ℝ) (bytes : List Byte) : List AsmLine :=
  asmSamples ((List.range (afskLength bytes.length)).map (afskSample amp bytes))

end Sys2Proof.Machine
end

