-- ==== Sys2Proof/Safety.lean ====
section
/-! DEFINITION. What holds of the block after reset and after every command (R28), in the terms the
statements use. -/

namespace Sys2Proof.Safety

open Sys2Proof.Machine

/-- Inputs the hardware has: commands and reset edges. The unit-level notations of R73 "are not commands
and bypass the units before them". -/
def isPortInput : Input → Bool
  | .rst => true
  | .cmd _ _ => true
  | .tone _ _ _ => false
  | .byte _ _ _ => false

/-- Every space is in its canonical form (R40). -/
abbrev MemoriesCanonical (s : State) : Prop :=
  Memory.wf Config.corrLen s.corr.win ∧ Memory.wf Config.headLen s.frame.head
    ∧ Memory.wf Config.msgCap s.frame.msg ∧ Memory.wf Config.lastMsgCap s.outs.lastMsg

/-- Cells at or above a length counter hold 0 (R21, R22, R25); cells of `WIN` below `L - fill` hold 0
(R11). -/
abbrev UnusedCellsZero (s : State) : Prop :=
  (∀ c ∈ s.frame.head, c.1 < s.frame.headlen.val) ∧ (∀ c ∈ s.frame.msg, c.1 < s.frame.msglen.val)
    ∧ (∀ c ∈ s.outs.lastMsg, c.1 < s.outs.lastMsgLen.val)
    ∧ ∀ c ∈ s.corr.win, Config.corrLen ≤ c.1 + s.corr.fill.val

/-- R28 (b): `phase ≠ Idle` implies `lock`. -/
abbrev LockedUnlessIdle (s : State) : Prop := s.frame.phase ≠ .idle → s.sync.lock = true

/-- R28 (c): `headlen > 0` implies `phase = HeaderSearch` and then `headlen ≤ 3`; and in
`HeaderSearch` `headlen = 0` "cannot occur" (R121). -/
abbrev HeadlenInSearch (s : State) : Prop :=
  (0 < s.frame.headlen.val ↔ s.frame.phase = .headerSearch) ∧ s.frame.headlen.val ≤ 3

/-- R28 (d): `msglen > 0` implies `phase = ReadingMessage`. -/
abbrev MsglenInMessage (s : State) : Prop := 0 < s.frame.msglen.val → s.frame.phase = .readingMessage

/-- R28 (e): `−10 ≤ integ ≤ 10`. -/
abbrev IntegInRange (s : State) : Prop :=
  -Config.integMax ≤ s.sync.integ.toInt ∧ s.sync.integ.toInt ≤ Config.integMax

/-- "While not locked, `bitcnt` stays 0" (R97). -/
abbrev UnlockedCountsNothing (s : State) : Prop := s.sync.lock = false → s.sync.bitcnt = 0#3

/-- R28 (h): before the first full window `subsamp`, `cur_idx` and all `sync` and `frame` registers are
at their reset values. -/
abbrev WarmingUp (s : State) : Prop :=
  s.corr.fill.val < Config.corrLen →
    s.corr.curIdx = 0#64 ∧ s.sync = State.reset.sync ∧ s.frame = State.reset.frame

/-- Where the block is in the sample stream (R11, R12): `nsamp` is `fill` until the window is full, then
`cur_idx + L` and the samples carried in `subsamp`; `cur_idx` is a multiple of `SUBSAMP`. -/
abbrev StreamPosition (s : State) : Prop :=
  (s.corr.fill.val < Config.corrLen → s.corr.nsamp = BitVec.ofNat 64 s.corr.fill.val)
    ∧ (s.corr.fill.val = Config.corrLen →
        s.corr.nsamp = s.corr.curIdx + BitVec.ofNat 64 Config.corrLen + s.sync.subsamp.setWidth 64)
    ∧ s.corr.curIdx.toNat % Config.subsamp = 0

/-- Only commands and reset edges are to come: the stream of R9. -/
abbrev OnlyPortInputs (s : State) : Prop := ∀ i ∈ s.port.inputs, isPortInput i = true

/-- The invariants of R28 with those of R11, R12, R21, R22, R25 and R97. Parts (a), (f) and (g) of R28
hold by the types of `phase`, `sphase` and `bitcnt`. -/
abbrev BlockInv (s : State) : Prop :=
  MemoriesCanonical s ∧ UnusedCellsZero s ∧ LockedUnlessIdle s ∧ HeadlenInSearch s ∧ MsglenInMessage s
    ∧ IntegInRange s ∧ UnlockedCountsNothing s ∧ WarmingUp s ∧ StreamPosition s ∧ OnlyPortInputs s

/-- The first `n` cells of a text space hold allowed bytes, 0x00 not among them (R66), and so does every
listed cell, wherever it lies. -/
abbrev AllowedBelow (m : Memory 8) (n : Nat) : Prop :=
  (∀ i, i < n → allowed (memRead m i) = true) ∧ ∀ c ∈ m, allowed c.2 = true

/-- Every stored text byte, each cell below the length counter of its space, is an allowed byte: "Only
allowed bytes and 0x00 ever reach `FRAME` from `SYNC`" (R67), and the 0x00 is the null byte, which no rule
stores. -/
abbrev TextAllowed (s : State) : Prop :=
  MemoriesCanonical s ∧ AllowedBelow s.frame.head s.frame.headlen.val
    ∧ AllowedBelow s.frame.msg s.frame.msglen.val ∧ AllowedBelow s.outs.lastMsg s.outs.lastMsgLen.val
    ∧ OnlyPortInputs s

/-- Run internal operations one after the other, each on the state the one before it left. -/
def runOps : List Instr → State → Host.Outcome State Fault Refusal
  | [], s => .next s
  | i :: is, s =>
    match exec i s with
    | .next t => runOps is t
    | .fault r => .fault r
    | .refused r => .refused r

/-- Submit bytes to the frame decoder one after the other, each with its index, each as the `submit`
case that the byte and the phase at that point select (R67). -/
def submitAll : List (Byte × Idx) → State → Host.Outcome State Fault Refusal
  | [], s => .next s
  | (b, idx) :: rest, s =>
    match exec (decode (.frameByte s.frame.phase b idx)) s with
    | .next t => submitAll rest t
    | .fault r => .fault r
    | .refused r => .refused r

end Sys2Proof.Safety
end

