-- ==== Sys2Proof/Certificates/Slice0/Obligations.lean ====
section
/-! DEFINITION. The statements for the provers, in the order of spec/: encoding, stepping, host commands,
correlator, bit synchronizer, frame decoder, read port, invariants. A statement that gives a whole next
state `{ s with … }` is the result of the operation, its frame and its completion at once: every
register, flag and memory cell not named there is unchanged. -/

open Sys2Proof Sys2Proof.Machine Sys2Proof.Safety

/-! ### Encoding and configuration -/

/-- Every well-formed operation that has an encoding decodes back from it (R61 to R65, R67). -/
def Obligations.DecodeOfEncodeGivesInstr : Prop :=
  ∀ i : Instr, wellFormed i = true → isInternal i = false → ∃ p, encode i = some p ∧ decode p = i

/-- Re-encoding what a command word decodes to gives the word with its ignored `data` bits 0 and no other
bit changed (R61 to R64): all of `data` counts for `SAMPLE`, `data[3:0]` for `ACK`, none otherwise. -/
def Obligations.EncodeOfDecodedCommandIsCanonicalWord : Prop :=
  ∀ (op : BitVec 3) (data : BitVec 16),
    encode (decode (.cmd (op ++ data))) =
      some (.cmd (op ++ (if op = 1#3 then data else if op = 4#3 then data &&& 0x000F#16 else 0#16)))

/-- The words R73 writes out decode to the commands they stand for. -/
def Obligations.WrittenOutWordsDecode : Prop :=
  decodeTableWord 24 0x1FB2E = some (.sample (BitVec.ofInt 16 (-1234)))
    ∧ decodeTableWord 24 0x20000 = some .flush
    ∧ decodeTableWord 24 0x30000 = some .clear
    ∧ decodeTableWord 24 0x40003 = some (.ack 3#4)
    ∧ decodeTableWord 24 0x00000 = some .nop

/-- The derived parameters of R6 are the values of their formulas, with `round` of R7. -/
def Obligations.ParametersFollowTheirFormulas : Prop :=
  Config.corrLen = Config.roundDiv (Config.fs * 100) Config.baudHundredths
    ∧ Config.phaseInc =
        Config.roundDiv (Config.phaseMod * Config.subsamp * Config.baudHundredths) (Config.fs * 100)
    ∧ Config.centreThr = Config.phaseMod / 2 - Config.phaseInc / 8
    ∧ Config.lowGuard = Config.phaseInc / 2
    ∧ Config.highGuard = Config.phaseMod - Config.phaseInc / 2
    ∧ Config.lastMsgCap = Config.hdrBegin.length + Config.msgCap

/-- `ALLOWED` over all 256 bytes (R66). -/
def Obligations.AllowedBytesAreControlRangeAndPrintable : Prop :=
  ∀ b : Byte, allowed b = true ↔
    (0x09#8 ≤ b ∧ b ≤ 0x0D#8) ∨ (0x20#8 ≤ b ∧ b ≤ 0x7E#8)

/-! ### Stepping -/

/-- A step on a command runs the operation its word decodes to, with the command's `time_in` on the port,
the pulses and conditions of the transition before gone, and the rest of the stream still to come (the
stream is the model's own field, log 1). -/
def Obligations.StepRunsTheDecodedCommand : Prop :=
  ∀ (s : State) (w : CmdWord) (t : Time) (rest : List Input), s.port.inputs = .cmd w t :: rest →
    step s = exec (decode (.cmd w))
      { s with port.timeIn := t, port.inputs := rest, port.evOut := 0#4, port.conds := [] }

/-- A step on a unit-level byte runs the `submit` case that the byte and the phase select (the model's
choice of log 3). -/
def Obligations.StepRunsTheSelectedSubmitCase : Prop :=
  ∀ (s : State) (b : Byte) (idx : Idx) (t : Time) (rest : List Input),
    s.port.inputs = .byte b idx t :: rest →
    step s = exec (decode (.frameByte s.frame.phase b idx))
      { s with port.timeIn := t, port.inputs := rest, port.evOut := 0#4, port.conds := [] }

/-- A step on a unit-level tone is a decision step from step 2 on (R73, R90), with the sign given and the
sample index in `cur_idx` (the model's choice of log 3). -/
def Obligations.StepOnToneRunsTheSyncOperations : Prop :=
  ∀ (s : State) (sg : ToneSign) (idx : Idx) (t : Time) (rest : List Input),
    s.port.inputs = .tone sg idx t :: rest →
    ∃ u v, runOps [.dcd, .integ, .dlladj, .phadv]
        { s with
          corr.curIdx := idx, wires.sg := sg
          port.timeIn := t, port.inputs := rest, port.evOut := 0#4, port.conds := [] } = .next u
      ∧ runOps (if u.wires.wrapped then [.bitdec, .prelock] else []) u = .next v
      ∧ step s = .next v

/-- With no command the block holds every register; only the pulses of the transition before end (that
the model steps at all without a command is its choice of log 1). -/
def Obligations.StepWithoutInputHoldsState : Prop :=
  ∀ s : State, s.port.inputs = [] →
    step s = .next { s with port.evOut := 0#4, port.conds := [] }

/-- Nothing stops the block: every operation and every step answers a next state, whatever the state. -/
def Obligations.NothingEverStops : Prop :=
  (∀ (i : Instr) (s : State), ∃ t, exec i s = .next t) ∧ ∀ s : State, ∃ t, step s = .next t

/-- Raw bits that decode to an operation, placed after reset, are run by the very next step (the model's
choice of logs 1 and 4). -/
def Obligations.FetchWordIsRunFirst : Prop :=
  ∀ (nbits w : Nat) (i : Instr), decodeTableWord nbits w = some i →
    step (State.reset.withFetchWord nbits w) = exec i State.reset

/-- A clock edge with `rst` = 1 leaves every register at its reset value, whatever the state, emits no
event and performs no command (`rst` is one entry of the input stream, log 11). -/
def Obligations.ResetEdgeResetsEveryRegister : Prop :=
  ∀ (s : State) (rest : List Input), s.port.inputs = .rst :: rest →
    ∃ t, step s = .next t ∧ t.corr = State.reset.corr ∧ t.sync = State.reset.sync
      ∧ t.frame = State.reset.frame ∧ t.outs = State.reset.outs ∧ t.iface = State.reset.iface
      ∧ t.port.evOut = 0#4 ∧ t.port.conds = [] ∧ t.port.inputs = rest

/-- After reset every address of the read port, hence every register, reads 0. -/
def Obligations.EveryAddressReadsZeroAfterReset : Prop :=
  ∀ a : BitVec 12, readPort State.reset a = 0#64

/-! ### Host commands -/

/-- `NOP` changes nothing. -/
def Obligations.NopChangesNothing : Prop := ∀ s : State, exec .nop s = .next s

/-- `CLEAR` gives every register its reset value. What the host drives, `time_in` and the commands still
to come, is no register and stays (the model's choice, logs 1 and 2). -/
def Obligations.ClearGivesTheResetState : Prop :=
  ∀ s : State, exec .clear s =
    .next { State.reset with port.timeIn := s.port.timeIn, port.inputs := s.port.inputs }

/-- `ACK` clears the event flags its mask selects and changes nothing else. -/
def Obligations.AckClearsTheMaskedFlags : Prop :=
  ∀ (mask : BitVec 4) (s : State),
    ∃ f, exec (.ack mask) s = .next { s with iface.evflags := f }
      ∧ ∀ k, k < 4 → f.getLsbD k = (s.iface.evflags.getLsbD k && !(mask.getLsbD k))

/-- A reserved command sets `cmderr` and changes no other register. -/
def Obligations.ReservedCommandsSetCmderr : Prop :=
  ∀ i ∈ [Instr.reserved5, .reserved6, .reserved7], ∀ s : State,
    exec i s = .next { s with
      iface.cmderr := true, port.conds := s.port.conds ++ [.reservedCommand] }

/-- `FLUSH` is `submit(0, cur_idx)` and leaves `CORR` and `SYNC` alone. -/
def Obligations.FlushSubmitsANullByte : Prop :=
  ∀ s : State, ∃ t, exec .flush s = .next t
    ∧ exec (decode (.frameByte s.frame.phase 0#8 s.corr.curIdx)) s = .next t
    ∧ t.corr = s.corr ∧ t.sync = s.sync ∧ t.wires = s.wires

/-- A `SAMPLE` that completes no window changes only `WIN`, `fill`, `subsamp` and `nsamp`: the window
moves by one and takes the sample in at its end. -/
def Obligations.SampleWithoutDecisionStep : Prop :=
  ∀ (x : Sample) (s : State), Memory.wf 42 s.corr.win →
    (s.corr.fill.val < 41 ∨ (s.corr.fill.val = 42 ∧ s.sync.subsamp = 0#1)) →
    ∃ win' fill', exec (.sample x) s = .next { s with
        corr.win := win', corr.fill := fill', corr.nsamp := s.corr.nsamp + 1#64
        sync.subsamp := if s.corr.fill.val = 42 then 1#1 else s.sync.subsamp }
      ∧ fill'.val = min (s.corr.fill.val + 1) 42
      ∧ ∀ a, memRead win' a =
          if a = 41 then x else if a < 41 then memRead s.corr.win (a + 1) else memRead s.corr.win a

/-- A `SAMPLE` that completes a window takes the sample in and performs one decision step: `cur_idx` takes
the stream index of `WIN[0]`, then `DISC`, `DCD`, `INTEG`, `DLLADJ`, `PHADV` in this order and, where
`PHADV` wraps, `BITDEC` and `PRELOCK` (with `BYTECNT` inside). -/
def Obligations.SampleWithDecisionStep : Prop :=
  ∀ (x : Sample) (s : State), Memory.wf 42 s.corr.win →
    (s.corr.fill.val = 41 ∨ (s.corr.fill.val = 42 ∧ s.sync.subsamp = 1#1)) →
    ∃ win' u v, (∀ a, memRead win' a =
          if a = 41 then x else if a < 41 then memRead s.corr.win (a + 1) else memRead s.corr.win a)
      ∧ runOps [.disc, .dcd, .integ, .dlladj, .phadv] { s with
          corr.win := win', corr.fill := 42, corr.nsamp := s.corr.nsamp + 1#64
          corr.curIdx := s.corr.nsamp + 1#64 - 42#64, sync.subsamp := 0#1 } = .next u
      ∧ runOps (if u.wires.wrapped then [.bitdec, .prelock] else []) u = .next v
      ∧ exec (.sample x) s = .next v

/-! ### Correlator Bank -/

/-- `TABLE` leaves the state as it is: the tables are constants and no state (R29), so the model's choice
of log 9 is that filling them once more changes no register. -/
def Obligations.TableLeavesTheState : Prop := ∀ s : State, exec .table s = .next s

/-- `CORR` puts its result on the wire of its table and changes nothing else; it is a function of the
window alone, and 0 for the all-zero window in any number format (the wires are the model's own, log 7). -/
def Obligations.CorrWritesItsOwnResultOnly : Prop :=
  ∀ s s' : State, (∀ a, a < 42 → memRead s.corr.win a = memRead s'.corr.win a) →
    ∃ c : RefTable → Int,
      ((∀ a, a < 42 → memRead s.corr.win a = 0#16) → ∀ ref, c ref = 0)
      ∧ (exec (.corr .markI) s = .next { s with wires.mi := c .markI }
        ∧ exec (.corr .markI) s' = .next { s' with wires.mi := c .markI })
      ∧ (exec (.corr .markQ) s = .next { s with wires.mq := c .markQ }
        ∧ exec (.corr .markQ) s' = .next { s' with wires.mq := c .markQ })
      ∧ (exec (.corr .spaceI) s = .next { s with wires.si := c .spaceI }
        ∧ exec (.corr .spaceI) s' = .next { s' with wires.si := c .spaceI })
      ∧ (exec (.corr .spaceQ) s = .next { s with wires.sq := c .spaceQ }
        ∧ exec (.corr .spaceQ) s' = .next { s' with wires.sq := c .spaceQ })

/-- `DISC` (R82) leaves on the four correlation wires what the four `CORR` operations leave there against
the current window. The two laws of `NUMERICS` (R85): its tone decision depends on the window samples alone,
and it is neither mark nor space for the all-zero window. Only the model's wires change (log 7). -/
def Obligations.DiscObeysTheTwoLawsOfNumerics : Prop :=
  ∀ s s' : State, (∀ a, a < 42 → memRead s.corr.win a = memRead s'.corr.win a) →
    ∃ mi mq si sq sg,
      (exec (.corr .markI) s = .next { s with wires.mi := mi }
        ∧ exec (.corr .markQ) s = .next { s with wires.mq := mq }
        ∧ exec (.corr .spaceI) s = .next { s with wires.si := si }
        ∧ exec (.corr .spaceQ) s = .next { s with wires.sq := sq })
      ∧ (exec (.corr .markI) s' = .next { s' with wires.mi := mi }
        ∧ exec (.corr .markQ) s' = .next { s' with wires.mq := mq }
        ∧ exec (.corr .spaceI) s' = .next { s' with wires.si := si }
        ∧ exec (.corr .spaceQ) s' = .next { s' with wires.sq := sq })
      ∧ exec .disc s = .next { s with wires := ⟨mi, mq, si, sq, sg, s.wires.wrapped⟩ }
      ∧ exec .disc s' = .next { s' with wires := ⟨mi, mq, si, sq, sg, s'.wires.wrapped⟩ }
      ∧ ((∀ a, a < 42 → memRead s.corr.win a = 0#16) → sg = .neither)

/-- Row 0 of the reference tables is (1, 0, 1, 0) (95_test_vectors.md section 2.1). -/
def Obligations.ReferenceTablesStartAtPhaseZero : Prop :=
  refEntry 0 0 .markI 0 = 1 ∧ refEntry 0 0 .markQ 0 = 0
    ∧ refEntry 0 0 .spaceI 0 = 1 ∧ refEntry 0 0 .spaceQ 0 = 0

/-- R84 (a) and (b): silence gives no decision, and the reference decision does not depend on `SCALE`. -/
def Obligations.ReferenceDecisionIgnoresScale : Prop :=
  (∀ scale : ℝ, refToneSign scale [] = .neither)
    ∧ ∀ (scale : ℝ) (win : Memory 16), 0 < scale → refToneSign scale win = refToneSign 1 win

/-- R84 (b) and (c): multiplying every sample by one constant multiplies `f` by its square, whatever the
starting phases; so negating every sample leaves `f` unchanged. -/
def Obligations.ReferenceDiscriminantScalesBySquare : Prop :=
  ∀ (pm ps c : ℝ) (x : Nat → ℝ),
    refDiscriminant pm ps (fun i => c * x i) = c ^ 2 * refDiscriminant pm ps x
      ∧ refDiscriminant pm ps (fun i => -x i) = refDiscriminant pm ps x

/-- R84 (d): a common starting phase of a tone's two tables leaves `f` unchanged. -/
def Obligations.ReferenceDiscriminantIgnoresStartingPhase : Prop :=
  ∀ (pm ps : ℝ) (x : Nat → ℝ), refDiscriminant pm ps x = refDiscriminant 0 0 x

/-- R84 (e): a window with a single non-zero sample gives `f = 0` exactly. -/
def Obligations.ReferenceSingleSampleBalances : Prop :=
  ∀ (j : Nat) (v : ℝ), j < 42 → refDiscriminant 0 0 (fun i => if i = j then v else 0) = 0

/-! ### Bit Synchronizer -/

/-- `DCD`: `(dcd_shreg << 1 | b) mod 4` with `b` = 1 for a mark decision only (R91). -/
def Obligations.DcdShiftsTheToneDecisionIn : Prop :=
  ∀ s : State, ∃ d, exec .dcd s = .next { s with sync.dcdShreg := d }
    ∧ d.toNat = (2 * s.sync.dcdShreg.toNat + if s.wires.sg = .mark then 1 else 0) % 4

/-- `INTEG`: one up below +10 on a mark, one down above -10 on a space, otherwise unchanged (R92). -/
def Obligations.IntegMovesByOneAndSaturates : Prop :=
  ∀ s : State, ∃ n, exec .integ s = .next { s with sync.integ := n }
    ∧ n.toInt =
        if s.wires.sg = .mark ∧ s.sync.integ.toInt < 10 then s.sync.integ.toInt + 1
        else if s.wires.sg = .space ∧ -10 < s.sync.integ.toInt then s.sync.integ.toInt - 1
        else s.sync.integ.toInt

/-- `DLLADJ`: on a transition, and outside the guard regions, the phase moves toward the nearer ideal by
half its distance, at most 8192; otherwise it stays (R93). -/
def Obligations.DlladjHalvesTheDistanceUpToACap : Prop :=
  ∀ s : State, ∃ q, exec .dlladj s = .next { s with sync.sphase := q }
    ∧ q.toNat =
        if s.sync.dcdShreg = 1#2 ∨ s.sync.dcdShreg = 2#2 then
          (if s.sync.sphase.toNat < 32381 then
            (if 1548 < s.sync.sphase.toNat then
              s.sync.sphase.toNat - min (s.sync.sphase.toNat / 2) 8192 else s.sync.sphase.toNat)
          else if s.sync.sphase.toNat < 63988 then
            s.sync.sphase.toNat + min ((65536 - s.sync.sphase.toNat) / 2) 8192
          else s.sync.sphase.toNat)
        else s.sync.sphase.toNat

/-- `PHADV`: the phase advances by 3096 modulo 65536, and the wire `wrapped` says whether it wrapped
(R94; the wire is the model's own, log 7). -/
def Obligations.PhadvAdvancesModuloPhaseMod : Prop :=
  ∀ s : State, ∃ q, exec .phadv s =
      .next { s with
        sync.sphase := q, wires.wrapped := decide (65536 ≤ s.sync.sphase.toNat + 3096) }
    ∧ q.toNat = (s.sync.sphase.toNat + 3096) % 65536

/-- `BITDEC`: the bit `integ >= 0` enters `lasts` at bit 7 and the register moves one place toward bit 0;
nothing else changes, `integ` neither (R95). -/
def Obligations.BitdecShiftsTheDecidedBitIn : Prop :=
  ∀ s : State, ∃ l, exec .bitdec s = .next { s with sync.lasts := l }
    ∧ l.getLsbD 7 = decide (0 ≤ s.sync.integ.toInt)
    ∧ ∀ k, k < 7 → l.getLsbD k = s.sync.lasts.getLsbD (k + 1)

/-- `PRELOCK`: 0xAB in `lasts` outside `ReadingMessage` sets `lock` and zeroes `bitcnt`, and the bit is
not counted; else R97 is performed (R96). -/
def Obligations.PrelockMatchesOrCounts : Prop :=
  (∀ s : State, s.sync.lasts = 0xAB#8 → s.frame.phase ≠ .readingMessage →
    exec .prelock s = .next { s with sync.lock := true, sync.bitcnt := 0#3 })
  ∧ ∀ s : State, (s.sync.lasts ≠ 0xAB#8 ∨ s.frame.phase = .readingMessage) →
    ∃ t, exec .prelock s = .next t ∧ exec .bytecnt s = .next t

/-- `BYTECNT`: nothing while not locked; while locked a bit is counted, and the eighth classifies `lasts`
and sets `bitcnt` to 0 (R97). -/
def Obligations.BytecntCountsToEight : Prop :=
  ∀ s : State,
    (s.sync.lock = false → exec .bytecnt s = .next s)
    ∧ (s.sync.lock = true → s.sync.bitcnt.toNat < 7 →
        ∃ n, exec .bytecnt s = .next { s with sync.bitcnt := n }
          ∧ n.toNat = s.sync.bitcnt.toNat + 1)
    ∧ (s.sync.lock = true → s.sync.bitcnt.toNat = 7 →
        ∃ u, exec (if allowed s.sync.lasts then .classifyPass else .classifyFail) s = .next u
          ∧ exec .bytecnt s = .next { u with sync.bitcnt := 0#3 })

/-- `CLASSIFY` of an allowed byte submits it with the step's index and changes no synchronizer register
(R98); `CLASSIFY.PASS` does nothing for a byte that is not allowed. -/
def Obligations.ClassifyPassSubmitsAllowedBytes : Prop :=
  (∀ s : State, allowed s.sync.lasts = true →
    ∃ t, exec .classifyPass s = .next t
      ∧ exec (decode (.frameByte s.frame.phase s.sync.lasts s.corr.curIdx)) s = .next t
      ∧ t.corr = s.corr ∧ t.sync = s.sync)
  ∧ ∀ s : State, allowed s.sync.lasts = false → exec .classifyPass s = .next s

/-- `CLASSIFY` of a byte that is not allowed signals `FramingFailure`, clears `lock` and then submits the
null byte; no other synchronizer register changes (R99). `CLASSIFY.FAIL` does nothing for an allowed
byte. -/
def Obligations.ClassifyFailDropsLockAndSubmitsNull : Prop :=
  (∀ s : State, allowed s.sync.lasts = false →
    ∃ t, exec .classifyFail s = .next t
      ∧ exec (decode (.frameByte s.frame.phase 0#8 s.corr.curIdx))
          { s with sync.lock := false, port.conds := s.port.conds ++ [.framingFailure] } = .next t
      ∧ t.corr = s.corr ∧ t.sync = { s.sync with lock := false })
  ∧ ∀ s : State, allowed s.sync.lasts = true → exec .classifyFail s = .next s

/-! ### Frame Decoder -/

/-- `FRAME` never writes `SYNC` or `CORR` state (R5): whatever case a byte selects, the synchronizer and
correlator registers, `cmderr` and the host's pins stay. -/
def Obligations.SubmitLeavesSyncAndCorr : Prop :=
  ∀ (p : Phase) (b : Byte) (idx : Idx) (s t : State),
    exec (decode (.frameByte p b idx)) s = .next t →
    t.corr = s.corr ∧ t.sync = s.sync ∧ t.wires = s.wires ∧ t.iface.cmderr = s.iface.cmderr
      ∧ t.port.timeIn = s.port.timeIn ∧ t.port.inputs = s.port.inputs

/-- `SUBMIT.D.IDLE`: to `HeaderSearch`, then `SUBMIT.D.HS` with the same byte and index; with an empty
header window the byte lands in `head[0]` (R111). -/
def Obligations.FirstDataByteOpensTheHeaderWindow : Prop :=
  (∀ (b : Byte) (idx : Idx) (s : State), ∃ t, exec (.submitDIdle b idx) s = .next t
    ∧ exec (.submitDHs b idx) { s with frame.phase := .headerSearch } = .next t)
  ∧ ∀ (b : Byte) (idx : Idx) (s : State), Memory.wf 4 s.frame.head → s.frame.headlen.val = 0 →
    ∃ h, exec (.submitDIdle b idx) s = .next { s with
        frame.phase := .headerSearch, frame.head := h, frame.headlen := 1 }
      ∧ ∀ a, memRead h a = if a = 0 then b else memRead s.frame.head a

/-- `SUBMIT.D.HS` below the fourth byte: the byte is stored at `headlen`, which counts up; nothing else
changes (R112). -/
def Obligations.HeaderByteIsStored : Prop :=
  ∀ (b : Byte) (idx : Idx) (s : State), Memory.wf 4 s.frame.head → s.frame.headlen.val < 3 →
    ∃ h n, exec (.submitDHs b idx) s = .next { s with frame.head := h, frame.headlen := n }
      ∧ n.val = s.frame.headlen.val + 1
      ∧ ∀ a, memRead h a = if a = s.frame.headlen.val then b else memRead s.frame.head a

/-- `SUBMIT.D.HS` at the fourth byte: the window is compared with `ZCZC` and `NNNN`, in the same submit
that stores the byte (R112, R113). -/
def Obligations.FourthHeaderByteIsCompared : Prop :=
  ∀ (b : Byte) (idx : Idx) (s : State), Memory.wf 4 s.frame.head → s.frame.headlen.val = 3 →
    exec (.submitDHs b idx) s =
      if [memRead s.frame.head 0, memRead s.frame.head 1, memRead s.frame.head 2, b]
          = [0x5A#8, 0x43#8, 0x5A#8, 0x43#8] then
        .next { s with
          outs.headerStart := idx, outs.inAlert := true
          frame := { phase := .readingMessage, head := [], headlen := 0, msg := [], msglen := 0 }
          iface.evflags := s.iface.evflags ||| 1#4, port.evOut := s.port.evOut ||| 1#4 }
      else if [memRead s.frame.head 0, memRead s.frame.head 1, memRead s.frame.head 2, b]
          = [0x4E#8, 0x4E#8, 0x4E#8, 0x4E#8] then
        .next { s with
          outs.eomStart := idx
          frame := { phase := .readingEom, head := [], headlen := 0, msg := [], msglen := 0 }
          iface.evflags := s.iface.evflags ||| 4#4, port.evOut := s.port.evOut ||| 4#4 }
      else
        .next { s with
          frame := { phase := .idle, head := [], headlen := 0, msg := [], msglen := 0 }
          port.conds := s.port.conds ++ [.negativeMatch] }

/-- `SUBMIT.D.MSG`: below 268 bytes the byte is stored at `msglen`, which counts up; at 268 it is dropped
and `MessageSaturated` is signalled; the phase never changes (R114). -/
def Obligations.MessageByteIsStoredOrDropped : Prop :=
  (∀ (b : Byte) (idx : Idx) (s : State), Memory.wf 268 s.frame.msg → s.frame.msglen.val < 268 →
    ∃ m n, exec (.submitDMsg b idx) s = .next { s with frame.msg := m, frame.msglen := n }
      ∧ n.val = s.frame.msglen.val + 1
      ∧ ∀ a, memRead m a = if a = s.frame.msglen.val then b else memRead s.frame.msg a)
  ∧ ∀ (b : Byte) (idx : Idx) (s : State), s.frame.msglen.val = 268 →
    exec (.submitDMsg b idx) s =
      .next { s with port.conds := s.port.conds ++ [.messageSaturated] }

/-- `SUBMIT.D.EOM` and `SUBMIT.N.IDLE`: a data byte in `ReadingEOM` is discarded and a null byte in `Idle`
is a no-op; no state changes (R115, R116). -/
def Obligations.SubmissionsThatChangeNothing : Prop :=
  (∀ (b : Byte) (idx : Idx) (s : State), exec (.submitDEom b idx) s = .next s)
  ∧ ∀ (idx : Idx) (s : State), exec (.submitNIdle idx) s = .next s

/-- `SUBMIT.N.HS`: the buffers are cleared and the phase is `Idle`; no index, no event (R117). -/
def Obligations.NullInHeaderSearchAborts : Prop :=
  ∀ (idx : Idx) (s : State), exec (.submitNHs idx) s =
    .next { s with
      frame := { phase := .idle, head := [], headlen := 0, msg := [], msglen := 0 } }

/-- `SUBMIT.N.MSG`: `last_msg` becomes `ZCZC` and the stored text up to and with its last hyphen (all of it
where there is no hyphen), with zeros above; `header_end` and `ts_header` are recorded, the buffers
cleared, `HDR_END` emitted; `in_alert` and all else stay (R118). -/
def Obligations.NullInReadingMessageCompletesIt : Prop :=
  ∀ (idx : Idx) (s : State) (n : Nat),
    ((n = s.frame.msglen.val ∧ ∀ i, i < s.frame.msglen.val → memRead s.frame.msg i ≠ 0x2D#8)
      ∨ (1 ≤ n ∧ n ≤ s.frame.msglen.val ∧ memRead s.frame.msg (n - 1) = 0x2D#8
          ∧ ∀ i, n ≤ i → i < s.frame.msglen.val → memRead s.frame.msg i ≠ 0x2D#8)) →
    ∃ lm len, exec (.submitNMsg idx) s = .next { s with
        outs.lastMsg := lm, outs.lastMsgLen := len
        outs.headerEnd := idx, outs.tsHeader := s.port.timeIn
        frame := { phase := .idle, head := [], headlen := 0, msg := [], msglen := 0 }
        iface.evflags := s.iface.evflags ||| 2#4, port.evOut := s.port.evOut ||| 2#4 }
      ∧ len.val = 4 + n
      ∧ (memRead lm 0 = 0x5A#8 ∧ memRead lm 1 = 0x43#8 ∧ memRead lm 2 = 0x5A#8
          ∧ memRead lm 3 = 0x43#8)
      ∧ (∀ i, i < n → memRead lm (4 + i) = memRead s.frame.msg i)
      ∧ ∀ a, 4 + n ≤ a → memRead lm a = 0#8

/-- `SUBMIT.N.EOM`: `eom_end` and `ts_eom` are recorded, `in_alert` falls, the buffers are cleared,
`EOM_END` is emitted; `last_msg` and all else stay (R119). -/
def Obligations.NullInReadingEomCompletesIt : Prop :=
  ∀ (idx : Idx) (s : State), exec (.submitNEom idx) s =
    .next { s with
      outs.eomEnd := idx, outs.tsEom := s.port.timeIn, outs.inAlert := false
      frame := { phase := .idle, head := [], headlen := 0, msg := [], msglen := 0 }
      iface.evflags := s.iface.evflags ||| 8#4, port.evOut := s.port.evOut ||| 8#4 }

/-- The transition table of R120: where a byte takes the phase, from any state whose header window is as
R28 (c) says. -/
def Obligations.PhaseTransitionTable : Prop :=
  ∀ (b : Byte) (idx : Idx) (s : State), HeadlenInSearch s → Memory.wf 4 s.frame.head →
    ∃ t, exec (decode (.frameByte s.frame.phase b idx)) s = .next t
      ∧ t.frame.phase =
        match s.frame.phase with
        | .idle => if b = 0#8 then .idle else .headerSearch
        | .headerSearch =>
          if b = 0#8 then .idle
          else if s.frame.headlen.val < 3 then .headerSearch
          else if [memRead s.frame.head 0, memRead s.frame.head 1, memRead s.frame.head 2, b]
              = [0x5A#8, 0x43#8, 0x5A#8, 0x43#8] then .readingMessage
          else if [memRead s.frame.head 0, memRead s.frame.head 1, memRead s.frame.head 2, b]
              = [0x4E#8, 0x4E#8, 0x4E#8, 0x4E#8] then .readingEom
          else .idle
        | .readingMessage => if b = 0#8 then .idle else .readingMessage
        | .readingEom => if b = 0#8 then .idle else .readingEom

/-- R121 (a): from `Idle`, `ZCZC`, a text of non-zero bytes that has a hyphen and fits the buffer, and a
null byte leave `last_msg` = `ZCZC` and the text up to and including its last hyphen, `header_start` at
the index of the fourth byte and `header_end` at the index of the null byte. -/
def Obligations.HeaderMessageIsDecodedWhole : Prop :=
  ∀ (s : State) (i1 i2 i3 i4 iEnd : Idx) (body tail : List (Byte × Idx)) (iHyphen : Idx),
    s.frame.phase = .idle → s.frame.headlen.val = 0 → Memory.wf 4 s.frame.head →
    (∀ c ∈ body ++ tail, c.1 ≠ 0#8) → (∀ c ∈ tail, c.1 ≠ 0x2D#8) →
    body.length + 1 + tail.length ≤ 268 →
    ∃ t, submitAll ([(0x5A#8, i1), (0x43#8, i2), (0x5A#8, i3), (0x43#8, i4)]
          ++ (body ++ [(0x2D#8, iHyphen)] ++ tail) ++ [(0#8, iEnd)]) s = .next t
      ∧ t.outs.lastMsgLen.val = 4 + (body.length + 1)
      ∧ memCells t.outs.lastMsg (4 + (body.length + 1)) =
          [0x5A#8, 0x43#8, 0x5A#8, 0x43#8] ++ body.map Prod.fst ++ [0x2D#8]
      ∧ t.outs.headerStart = i4 ∧ t.outs.headerEnd = iEnd ∧ t.outs.inAlert = true
      ∧ t.frame.phase = .idle

/-- R121 (b) as R113 and C1 read it: from `Idle`, `NNNN`, any non-zero bytes and a null byte record
`eom_start` at the fourth `N` and `eom_end` at the null byte, emit both events and end the alert. -/
def Obligations.EndOfMessageIsDecodedWhole : Prop :=
  ∀ (s : State) (i1 i2 i3 i4 iEnd : Idx) (extra : List (Byte × Idx)),
    s.frame.phase = .idle → s.frame.headlen.val = 0 → Memory.wf 4 s.frame.head →
    (∀ c ∈ extra, c.1 ≠ 0#8) →
    ∃ t, submitAll ([(0x4E#8, i1), (0x4E#8, i2), (0x4E#8, i3), (0x4E#8, i4)]
          ++ extra ++ [(0#8, iEnd)]) s = .next t
      ∧ t.outs.eomStart = i4 ∧ t.outs.eomEnd = iEnd ∧ t.outs.inAlert = false
      ∧ t.outs.lastMsg = s.outs.lastMsg ∧ t.frame.phase = .idle
      ∧ t.iface.evflags = s.iface.evflags ||| 12#4

/-! ### Read port -/

/-- The fields of `STATUS` (R31). -/
def Obligations.StatusFields : Prop :=
  ∀ s : State,
    (readPort s 0x000#12).getLsbD 0 = s.sync.lock
    ∧ (readPort s 0x000#12).extractLsb' 1 2 =
        (match s.frame.phase with
          | .idle => 0#2 | .headerSearch => 1#2 | .readingMessage => 2#2 | .readingEom => 3#2)
    ∧ (readPort s 0x000#12).getLsbD 3 = s.outs.inAlert
    ∧ (readPort s 0x000#12).extractLsb' 4 4 = s.iface.evflags
    ∧ (readPort s 0x000#12).getLsbD 8 = s.iface.cmderr
    ∧ (readPort s 0x000#12).extractLsb' 9 55 = 0#55

/-- The register map of the read port (R30): every row but `STATUS`; any other address reads 0. -/
def Obligations.ReadPortRegisterMap : Prop :=
  ∀ s : State,
    (readPort s 0x001#12).toNat = s.sync.sphase.toNat
    ∧ (readPort s 0x002#12).toNat = s.sync.dcdShreg.toNat
    ∧ (readPort s 0x003#12).toInt = s.sync.integ.toInt
    ∧ (readPort s 0x004#12).toNat = s.sync.subsamp.toNat
    ∧ (readPort s 0x005#12).toNat = s.sync.lasts.toNat
    ∧ (readPort s 0x006#12).toNat = s.sync.bitcnt.toNat
    ∧ (readPort s 0x007#12).toNat = s.frame.headlen.val
    ∧ (readPort s 0x008#12).toNat = s.frame.msglen.val
    ∧ readPort s 0x009#12 = s.corr.nsamp ∧ readPort s 0x00A#12 = s.corr.curIdx
    ∧ readPort s 0x00B#12 = s.outs.headerStart ∧ readPort s 0x00C#12 = s.outs.headerEnd
    ∧ readPort s 0x00D#12 = s.outs.eomStart ∧ readPort s 0x00E#12 = s.outs.eomEnd
    ∧ readPort s 0x00F#12 = s.outs.tsHeader ∧ readPort s 0x010#12 = s.outs.tsEom
    ∧ (readPort s 0x011#12).toNat = s.outs.lastMsgLen.val
    ∧ (readPort s 0x012#12).toNat = s.corr.fill.val
    ∧ (∀ i, i < 4 → (readPort s (BitVec.ofNat 12 (0x100 + i))).toNat = (memRead s.frame.head i).toNat)
    ∧ (∀ i, i < 268 → (readPort s (BitVec.ofNat 12 (0x200 + i))).toNat = (memRead s.frame.msg i).toNat)
    ∧ (∀ i, i < 272 →
        (readPort s (BitVec.ofNat 12 (0x400 + i))).toNat = (memRead s.outs.lastMsg i).toNat)
    ∧ (∀ i, i < 42 → (readPort s (BitVec.ofNat 12 (0x600 + i))).toInt = (memRead s.corr.win i).toInt)
    ∧ ∀ a : BitVec 12, 0x012 < a.toNat →
        ¬ (0x100 ≤ a.toNat ∧ a.toNat < 0x104) → ¬ (0x200 ≤ a.toNat ∧ a.toNat < 0x200 + 268) →
        ¬ (0x400 ≤ a.toNat ∧ a.toNat < 0x400 + 272) → ¬ (0x600 ≤ a.toNat ∧ a.toNat < 0x600 + 42) →
        readPort s a = 0#64

/-! ### What holds of every step -/

/-- The invariants of R28 hold right after reset. -/
def Obligations.InvariantsHoldAtReset : Prop := BlockInv State.reset

/-- The invariants of R28 are kept by every step, from every state that has them. -/
def Obligations.EveryStepKeepsTheInvariants : Prop :=
  ∀ s t : State, BlockInv s → step s = .next t → BlockInv t

/-- Only allowed bytes are ever stored in the buffers and `last_msg` (R66, R67), whatever the host commands:
after reset, and after every step from a state with canonical memories and only commands and reset edges to
come, each cell of `HEAD`, `MSG` and `LASTMSG` below its length counter reads an allowed byte, so none reads
0x00, and no cell anywhere holds a byte other than 0 that is not allowed. -/
def Obligations.OnlyAllowedBytesAreEverStored : Prop :=
  TextAllowed State.reset ∧ ∀ s t : State, TextAllowed s → step s = .next t → TextAllowed t

/-- R146: one step signals at most one condition and emits at most one event, and the only condition that
comes with an event is `FramingFailure`, with `HDR_END` or `EOM_END`. -/
def Obligations.AtMostOneEventPerStep : Prop :=
  ∀ s t : State, step s = .next t →
    t.port.conds.length ≤ 1
    ∧ (t.port.evOut = 0#4 ∨ t.port.evOut = 1#4 ∨ t.port.evOut = 2#4 ∨ t.port.evOut = 4#4
        ∨ t.port.evOut = 8#4)
    ∧ (t.port.conds ≠ [] → t.port.evOut ≠ 0#4 →
        t.port.conds = [.framingFailure] ∧ (t.port.evOut = 2#4 ∨ t.port.evOut = 8#4))

/-- R145: an event sets its sticky flag, and a flag falls only by `ACK`, `CLEAR` or `rst`. -/
def Obligations.EventFlagsAreSticky : Prop :=
  ∀ s t : State, step s = .next t →
    t.iface.evflags = s.iface.evflags ||| t.port.evOut
    ∨ (∃ rest, s.port.inputs = .rst :: rest)
    ∨ ∃ w τ rest, s.port.inputs = .cmd w τ :: rest
        ∧ (decode (.cmd w) = .clear ∨ ∃ m, decode (.cmd w) = .ack m)

/-- R141: a framing failure is the only way `lock` becomes false other than reset. -/
def Obligations.LockFallsOnlyByFramingFailure : Prop :=
  ∀ s t : State, step s = .next t → s.sync.lock = true → t.sync.lock = false →
    .framingFailure ∈ t.port.conds
    ∨ (∃ rest, s.port.inputs = .rst :: rest)
    ∨ ∃ w τ rest, s.port.inputs = .cmd w τ :: rest ∧ decode (.cmd w) = .clear

/-- R26: `in_alert` rises with `HDR_START`, falls with `EOM_END` or reset, and is unchanged by everything
else; and R23, R24: each index and timestamp changes only with its event or by reset. -/
def Obligations.OutputsChangeOnlyWithTheirEvent : Prop :=
  ∀ s t : State, step s = .next t →
    (∀ rest, s.port.inputs ≠ .rst :: rest) →
    (∀ w τ rest, s.port.inputs = .cmd w τ :: rest → decode (.cmd w) ≠ .clear) →
    (t.port.evOut ≠ 1#4 → t.outs.headerStart = s.outs.headerStart)
    ∧ (t.port.evOut ≠ 2#4 → t.outs.headerEnd = s.outs.headerEnd ∧ t.outs.tsHeader = s.outs.tsHeader
        ∧ t.outs.lastMsg = s.outs.lastMsg ∧ t.outs.lastMsgLen = s.outs.lastMsgLen)
    ∧ (t.port.evOut ≠ 4#4 → t.outs.eomStart = s.outs.eomStart)
    ∧ (t.port.evOut ≠ 8#4 → t.outs.eomEnd = s.outs.eomEnd ∧ t.outs.tsEom = s.outs.tsEom)
    ∧ t.outs.inAlert =
        (if t.port.evOut = 1#4 then true else if t.port.evOut = 8#4 then false else s.outs.inAlert)

/-- R12, R150: `nsamp` goes up by exactly 1 with each `SAMPLE`, to 0 with a reset, and by nothing else. -/
def Obligations.NsampCountsSamples : Prop :=
  ∀ s t : State, step s = .next t →
    t.corr.nsamp =
      match s.port.inputs with
      | .rst :: _ => 0#64
      | .cmd w _ :: _ =>
        (match decode (.cmd w) with
          | .sample _ => s.corr.nsamp + 1#64
          | .clear => 0#64
          | _ => s.corr.nsamp)
      | _ => s.corr.nsamp

/-- The model's wires never matter (log 7): two states that differ in nothing else take steps to states
that differ in nothing else. -/
def Obligations.WiresNeverMatter : Prop :=
  ∀ (s : State) (w : Wires), ∃ t w', step s = .next t
    ∧ step { s with wires := w } = .next { t with wires := w' }
end

