-- ==== Sys2Proof/Laws/Memory.lean ====
section
/-! SUPPORT. The laws of memory spaces: read after write, the canonical form, fills and the window
shift. -/

namespace Sys2Proof.Machine

variable {w : Nat}

@[simp] theorem memRead_nil (a : Nat) : memRead ([] : Memory w) a = 0#w := rfl

theorem memRead_cons (b : Nat) (u : BitVec w) (m : Memory w) (a : Nat) :
    memRead ((b, u) :: m) a = if a = b then u else memRead m a := rfl

theorem Memory.wf_nil (size : Nat) : Memory.wf size ([] : Memory w) :=
  ⟨List.Pairwise.nil, fun _ h => nomatch h⟩

theorem Memory.wf_cons {size : Nat} {b : Nat} {u : BitVec w} {m : Memory w} :
    Memory.wf size ((b, u) :: m) ↔
      (∀ c ∈ m, b < c.1) ∧ (b < size ∧ u ≠ 0#w) ∧ Memory.wf size m := by
  simp only [Memory.wf, List.pairwise_cons, List.forall_mem_cons]
  tauto

/-- A cell below every listed one reads 0. -/
theorem memRead_of_below {m : Memory w} {a : Nat} (h : ∀ c ∈ m, a < c.1) : memRead m a = 0#w := by
  induction m with
  | nil => rfl
  | cons c m ih =>
    obtain ⟨b, u⟩ := c
    have hb : a < b := h (b, u) (by simp)
    rw [memRead_cons, if_neg (by omega)]
    exact ih fun c hc => h c (by simp [hc])

/-- What a listed cell of a canonical space reads. -/
theorem memRead_of_mem {size : Nat} {m : Memory w} (hm : Memory.wf size m) {c : Nat × BitVec w}
    (hc : c ∈ m) : memRead m c.1 = c.2 := by
  induction m with
  | nil => cases hc
  | cons d m ih =>
    obtain ⟨b, u⟩ := d
    obtain ⟨hlt, -, hm'⟩ := Memory.wf_cons.mp hm
    rcases List.mem_cons.mp hc with rfl | hc'
    · simp [memRead_cons]
    · rw [memRead_cons, if_neg (by have := hlt c hc'; omega)]
      exact ih hm' hc'

/-- A cell that reads other than 0 is listed. -/
theorem mem_of_memRead_ne {m : Memory w} {a : Nat} (h : memRead m a ≠ 0#w) : (a, memRead m a) ∈ m := by
  induction m with
  | nil => exact absurd rfl h
  | cons c m ih =>
    obtain ⟨b, u⟩ := c
    rw [memRead_cons] at h ⊢
    by_cases hab : a = b
    · simp [hab]
    · rw [if_neg hab] at h ⊢
      exact List.mem_cons_of_mem _ (ih h)

/-- Every cell a write lists was listed before or is the one written. -/
theorem mem_memWrite {m : Memory w} {a : Nat} {v : BitVec w} {c : Nat × BitVec w}
    (h : c ∈ memWrite m a v) : c ∈ m ∨ (c = (a, v) ∧ v ≠ 0#w) := by
  induction m with
  | nil =>
    by_cases hv : v = 0#w <;> simp_all [memWrite]
  | cons d m ih =>
    obtain ⟨b, u⟩ := d
    simp only [memWrite] at h
    split at h
    · split at h
      · exact .inl h
      · rcases List.mem_cons.mp h with rfl | h
        · exact .inr ⟨rfl, by assumption⟩
        · exact .inl h
    · split at h
      · split at h
        · exact .inl (List.mem_cons_of_mem _ h)
        · rcases List.mem_cons.mp h with rfl | h
          · exact .inr ⟨rfl, by assumption⟩
          · exact .inl (List.mem_cons_of_mem _ h)
      · rcases List.mem_cons.mp h with rfl | h
        · exact .inl (by simp)
        · exact (ih h).imp (List.mem_cons_of_mem _) id

/-- A write in range keeps the canonical form. -/
theorem memWrite_wf {size : Nat} {m : Memory w} (hm : Memory.wf size m) {a : Nat} (ha : a < size)
    (v : BitVec w) : Memory.wf size (memWrite m a v) := by
  induction m with
  | nil =>
    by_cases hv : v = 0#w
    · simp only [memWrite, hv, if_true]
      exact hm
    · simp only [memWrite, hv, if_false]
      exact Memory.wf_cons.mpr ⟨by simp, ⟨ha, hv⟩, hm⟩
  | cons d m ih =>
    obtain ⟨b, u⟩ := d
    obtain ⟨hlt, hbu, hm'⟩ := Memory.wf_cons.mp hm
    simp only [memWrite]
    split
    · split
      · exact hm
      · refine Memory.wf_cons.mpr ⟨?_, ⟨ha, by assumption⟩, hm⟩
        intro c hc
        rcases List.mem_cons.mp hc with rfl | hc
        · assumption
        · have := hlt c hc; omega
    · split
      · split
        · exact hm'
        · exact Memory.wf_cons.mpr
            ⟨fun c hc => by have := hlt c hc; omega, ⟨ha, by assumption⟩, hm'⟩
      · refine Memory.wf_cons.mpr ⟨?_, hbu, ih hm'⟩
        intro c hc
        rcases mem_memWrite hc with hc | ⟨rfl, -⟩
        · exact hlt c hc
        · show b < a
          omega

/-- Read after write, in a canonical space: the written cell holds the value, every other is left
alone. -/
theorem memRead_memWrite {size : Nat} {m : Memory w} (hm : Memory.wf size m) (a : Nat) (v : BitVec w)
    (x : Nat) : memRead (memWrite m a v) x = if x = a then v else memRead m x := by
  induction m with
  | nil =>
    by_cases hv : v = 0#w <;> by_cases hx : x = a <;> simp [memWrite, hv, hx, memRead_cons]
  | cons d m ih =>
    obtain ⟨b, u⟩ := d
    obtain ⟨hlt, -, hm'⟩ := Memory.wf_cons.mp hm
    have below : ∀ y, y ≤ b → memRead m y = 0#w := fun y hy =>
      memRead_of_below fun c hc => by have := hlt c hc; omega
    simp only [memWrite]
    by_cases hab : a < b
    · rw [if_pos hab]
      by_cases hv : v = 0#w
      · rw [if_pos hv, memRead_cons]
        by_cases hx : x = a
        · rw [if_pos hx, hv, if_neg (by omega), below x (by omega)]
        · rw [if_neg hx]
      · rw [if_neg hv, memRead_cons]
    · rw [if_neg hab]
      by_cases hab' : a = b
      · rw [if_pos hab']
        by_cases hv : v = 0#w
        · rw [if_pos hv, memRead_cons]
          by_cases hx : x = a
          · rw [if_pos hx, hv, below x (by omega)]
          · rw [if_neg hx, if_neg (by omega)]
        · rw [if_neg hv, memRead_cons, memRead_cons]
          by_cases hx : x = a
          · rw [if_pos hx, if_pos hx]
          · rw [if_neg hx, if_neg hx, if_neg (by omega)]
      · rw [if_neg hab', memRead_cons, memRead_cons, ih hm']
        by_cases hx : x = b
        · rw [if_pos hx, if_neg (by omega), if_pos hx]
        · rw [if_neg hx, if_neg hx]

/-- Two canonical spaces that read alike are equal. -/
theorem Memory.ext {size : Nat} {m n : Memory w} (hm : Memory.wf size m) (hn : Memory.wf size n)
    (h : ∀ a, memRead m a = memRead n a) : m = n := by
  induction m generalizing n with
  | nil =>
    cases n with
    | nil => rfl
    | cons d n =>
      have := memRead_of_mem hn (c := d) (by simp)
      have hd := hn.2 d (by simp)
      rw [← h] at this
      exact absurd this.symm hd.2
  | cons c m ih =>
    obtain ⟨a, u⟩ := c
    obtain ⟨hlt, hau, hm'⟩ := Memory.wf_cons.mp hm
    cases n with
    | nil => exact absurd (by simpa [memRead_cons] using h a) hau.2
    | cons d n =>
      obtain ⟨b, v⟩ := d
      obtain ⟨hlt', hbv, hn'⟩ := Memory.wf_cons.mp hn
      have belowM : ∀ y, y ≤ a → memRead m y = 0#w := fun y hy =>
        memRead_of_below fun c hc => by have := hlt c hc; omega
      have belowN : ∀ y, y ≤ b → memRead n y = 0#w := fun y hy =>
        memRead_of_below fun c hc => by have := hlt' c hc; omega
      have hab : a = b := by
        rcases Nat.lt_trichotomy a b with hab | hab | hab
        · have := h a
          rw [memRead_cons, if_pos rfl, memRead_cons, if_neg (by omega), belowN a (by omega)] at this
          exact absurd this hau.2
        · exact hab
        · have := h b
          rw [memRead_cons, if_neg (by omega), belowM b (by omega), memRead_cons, if_pos rfl] at this
          exact absurd this.symm hbv.2
      subst hab
      have huv : u = v := by simpa [memRead_cons] using h a
      subst huv
      rw [ih hm' hn' fun x => ?_]
      by_cases hx : x = a
      · rw [hx, belowM a (by omega), belowN a (by omega)]
      · simpa [memRead_cons, hx] using h x

/-- A fill in range keeps the canonical form. -/
theorem memFill_wf {size : Nat} {m : Memory w} (hm : Memory.wf size m) {a : Nat}
    {vs : List (BitVec w)} (h : a + vs.length ≤ size) : Memory.wf size (memFill m a vs) := by
  induction vs generalizing m a with
  | nil => exact hm
  | cons v vs ih =>
    rw [List.length_cons] at h
    exact ih (memWrite_wf hm (by omega) v) (by omega)

/-- What a fill leaves: cell `a + k` holds the `k`-th value, every other cell is left alone. -/
theorem memRead_memFill {size : Nat} {m : Memory w} (hm : Memory.wf size m) {a : Nat}
    {vs : List (BitVec w)} (h : a + vs.length ≤ size) (x : Nat) :
    memRead (memFill m a vs) x = if a ≤ x ∧ x < a + vs.length then vs.getD (x - a) 0#w else memRead m x := by
  induction vs generalizing m a with
  | nil => rw [memFill, if_neg (by simp)]
  | cons v vs ih =>
    rw [List.length_cons] at h
    rw [memFill, ih (memWrite_wf hm (by omega) v) (by omega), memRead_memWrite hm]
    simp only [List.length_cons]
    by_cases hx : x = a
    · subst hx
      rw [if_neg (by omega), if_pos rfl, if_pos (by omega)]
      simp
    · by_cases hr : a ≤ x ∧ x < a + (vs.length + 1)
      · rw [if_pos (by omega), if_pos hr]
        obtain ⟨k, rfl⟩ : ∃ k, x = a + 1 + k := ⟨x - (a + 1), by omega⟩
        rw [show a + 1 + k - (a + 1) = k by omega, show a + 1 + k - a = k + 1 by omega]
        rfl
      · rw [if_neg (by omega), if_neg hx, if_neg hr]

/-- Every cell a fill lists was listed before, or lies in the filled range and holds one of the values,
not 0. -/
theorem mem_memFill {m : Memory w} {a : Nat} {vs : List (BitVec w)} {c : Nat × BitVec w}
    (h : c ∈ memFill m a vs) : c ∈ m ∨ (a ≤ c.1 ∧ c.1 < a + vs.length ∧ c.2 ∈ vs ∧ c.2 ≠ 0#w) := by
  induction vs generalizing m a with
  | nil => exact .inl h
  | cons v vs ih =>
    rcases ih h with h | ⟨h1, h2, h3, h4⟩
    · rcases mem_memWrite h with h | ⟨rfl, hv⟩
      · exact .inl h
      · exact .inr ⟨le_refl a, by simp, by simp, hv⟩
    · exact .inr ⟨by omega, by simp; omega, by simp [h3], h4⟩

@[simp] theorem memCells_length (m : Memory w) (n : Nat) : (memCells m n).length = n := by
  simp [memCells]

theorem memCells_getElem (m : Memory w) (n i : Nat) (h : i < (memCells m n).length) :
    (memCells m n)[i] = memRead m i := by
  simp [memCells]

/-- The first cells of a space a fill from cell 0 made are the values filled in. -/
theorem memCells_memFill {size : Nat} {vs : List (BitVec w)} (h : vs.length ≤ size) :
    memCells (memFill ([] : Memory w) 0 vs) vs.length = vs := by
  apply List.ext_getElem
  · simp
  · intro i h1 h2
    rw [memCells_getElem, memRead_memFill (size := size) (Memory.wf_nil size) (by omega),
      if_pos ⟨by omega, by omega⟩]
    simp [h2]

/-- The moves of the window shift below step `n`: cells below `n` hold their upper neighbour's old
value. -/
theorem shift_loop_spec {win : Memory 16} (hw : Memory.wf Config.corrLen win) (n : Nat)
    (hn : n ≤ Config.corrLen - 1) :
    Memory.wf Config.corrLen
        ((List.range n).foldl (fun m i => memWrite m i (memRead m (i + 1))) win) ∧
      ∀ a, memRead ((List.range n).foldl (fun m i => memWrite m i (memRead m (i + 1))) win) a =
        if a < n then memRead win (a + 1) else memRead win a := by
  induction n with
  | zero => exact ⟨hw, fun a => by simp⟩
  | succ n ih =>
    obtain ⟨hwf, hr⟩ := ih (by omega)
    simp only [List.range_succ, List.foldl_append, List.foldl_cons, List.foldl_nil]
    refine ⟨memWrite_wf hwf (by simp [Config.corrLen] at *; omega) _, fun a => ?_⟩
    rw [memRead_memWrite hwf, hr, hr]
    by_cases ha : a = n
    · subst ha; simp
    · by_cases ha' : a < n
      · rw [if_neg ha, if_pos ha', if_pos (by omega)]
      · rw [if_neg ha, if_neg ha', if_neg (by omega)]

/-- The window shift keeps the canonical form (R131 step 1). -/
theorem shiftWin_wf {win : Memory 16} (hw : Memory.wf Config.corrLen win) (x : Sample) :
    Memory.wf Config.corrLen (shiftWin win x) :=
  memWrite_wf (shift_loop_spec hw _ (le_refl _)).1 (by decide) x

/-- What the window shift leaves (R131 step 1): each cell its upper neighbour's value, the last the new
sample. -/
theorem memRead_shiftWin {win : Memory 16} (hw : Memory.wf Config.corrLen win) (x : Sample) (a : Nat) :
    memRead (shiftWin win x) a =
      if a = 41 then x else if a < 41 then memRead win (a + 1) else memRead win a := by
  rw [shiftWin, memRead_memWrite (shift_loop_spec hw _ (le_refl _)).1,
    (shift_loop_spec hw _ (le_refl _)).2]
  rfl

/-- The window shift as one name with its two properties: a proof that takes it from here keeps `shiftWin`
folded, which is 42 writes deep. -/
theorem shiftWin_spec {win : Memory 16} (hw : Memory.wf Config.corrLen win) (x : Sample) :
    ∃ win', shiftWin win x = win' ∧ Memory.wf Config.corrLen win' ∧ ∀ a, memRead win' a =
      if a = 41 then x else if a < 41 then memRead win (a + 1) else memRead win a :=
  ⟨_, rfl, shiftWin_wf hw x, memRead_shiftWin hw x⟩

end Sys2Proof.Machine
end

