-- ==== Sys2Proof/Laws/State.lean ====
section
/-! SUPPORT. What each shared operation leaves in each group of registers, by `rfl`, so that no proof
unfolds a record update. -/

namespace Sys2Proof.Machine

@[simp] theorem clearFrame_corr (s : State) : (clearFrame s).corr = s.corr := rfl
@[simp] theorem clearFrame_sync (s : State) : (clearFrame s).sync = s.sync := rfl
@[simp] theorem clearFrame_frame (s : State) :
    (clearFrame s).frame = { s.frame with head := [], headlen := 0, msg := [], msglen := 0 } := rfl
@[simp] theorem clearFrame_outs (s : State) : (clearFrame s).outs = s.outs := rfl
@[simp] theorem clearFrame_iface (s : State) : (clearFrame s).iface = s.iface := rfl
@[simp] theorem clearFrame_wires (s : State) : (clearFrame s).wires = s.wires := rfl
@[simp] theorem clearFrame_port (s : State) : (clearFrame s).port = s.port := rfl

@[simp] theorem setPhase_corr (p : Phase) (s : State) : (setPhase p s).corr = s.corr := rfl
@[simp] theorem setPhase_sync (p : Phase) (s : State) : (setPhase p s).sync = s.sync := rfl
@[simp] theorem setPhase_frame (p : Phase) (s : State) :
    (setPhase p s).frame = { s.frame with phase := p } := rfl
@[simp] theorem setPhase_outs (p : Phase) (s : State) : (setPhase p s).outs = s.outs := rfl
@[simp] theorem setPhase_iface (p : Phase) (s : State) : (setPhase p s).iface = s.iface := rfl
@[simp] theorem setPhase_wires (p : Phase) (s : State) : (setPhase p s).wires = s.wires := rfl
@[simp] theorem setPhase_port (p : Phase) (s : State) : (setPhase p s).port = s.port := rfl

@[simp] theorem signal_corr (c : Condition) (s : State) : (signal c s).corr = s.corr := rfl
@[simp] theorem signal_sync (c : Condition) (s : State) : (signal c s).sync = s.sync := rfl
@[simp] theorem signal_frame (c : Condition) (s : State) : (signal c s).frame = s.frame := rfl
@[simp] theorem signal_outs (c : Condition) (s : State) : (signal c s).outs = s.outs := rfl
@[simp] theorem signal_iface (c : Condition) (s : State) : (signal c s).iface = s.iface := rfl
@[simp] theorem signal_wires (c : Condition) (s : State) : (signal c s).wires = s.wires := rfl
@[simp] theorem signal_port (c : Condition) (s : State) :
    (signal c s).port = { s.port with conds := s.port.conds ++ [c] } := rfl

@[simp] theorem emit_corr (e : Event) (s : State) : (emit e s).corr = s.corr := rfl
@[simp] theorem emit_sync (e : Event) (s : State) : (emit e s).sync = s.sync := rfl
@[simp] theorem emit_frame (e : Event) (s : State) : (emit e s).frame = s.frame := rfl
@[simp] theorem emit_outs (e : Event) (s : State) : (emit e s).outs = s.outs := rfl
@[simp] theorem emit_iface (e : Event) (s : State) :
    (emit e s).iface = { s.iface with evflags := s.iface.evflags ||| eventBit e } := rfl
@[simp] theorem emit_wires (e : Event) (s : State) : (emit e s).wires = s.wires := rfl
@[simp] theorem emit_port (e : Event) (s : State) :
    (emit e s).port = { s.port with evOut := s.port.evOut ||| eventBit e } := rfl

@[simp] theorem reservedCommand_corr (s : State) : (reservedCommand s).corr = s.corr := rfl
@[simp] theorem reservedCommand_sync (s : State) : (reservedCommand s).sync = s.sync := rfl
@[simp] theorem reservedCommand_frame (s : State) : (reservedCommand s).frame = s.frame := rfl
@[simp] theorem reservedCommand_outs (s : State) : (reservedCommand s).outs = s.outs := rfl
@[simp] theorem reservedCommand_iface (s : State) :
    (reservedCommand s).iface = { s.iface with cmderr := true } := rfl
@[simp] theorem reservedCommand_wires (s : State) : (reservedCommand s).wires = s.wires := rfl
@[simp] theorem reservedCommand_port (s : State) :
    (reservedCommand s).port = { s.port with conds := s.port.conds ++ [.reservedCommand] } := rfl

@[simp] theorem resetRegisters_corr (s : State) : (resetRegisters s).corr = State.reset.corr := rfl
@[simp] theorem resetRegisters_sync (s : State) : (resetRegisters s).sync = State.reset.sync := rfl
@[simp] theorem resetRegisters_frame (s : State) :
    (resetRegisters s).frame = State.reset.frame := rfl
@[simp] theorem resetRegisters_outs (s : State) : (resetRegisters s).outs = State.reset.outs := rfl
@[simp] theorem resetRegisters_iface (s : State) :
    (resetRegisters s).iface = State.reset.iface := rfl
@[simp] theorem resetRegisters_wires (s : State) :
    (resetRegisters s).wires = State.reset.wires := rfl
@[simp] theorem resetRegisters_port (s : State) :
    (resetRegisters s).port = { timeIn := s.port.timeIn, evOut := 0#4, conds := [], inputs := s.port.inputs } := rfl

@[simp] theorem quiet_corr (s : State) : (quiet s).corr = s.corr := rfl
@[simp] theorem quiet_sync (s : State) : (quiet s).sync = s.sync := rfl
@[simp] theorem quiet_frame (s : State) : (quiet s).frame = s.frame := rfl
@[simp] theorem quiet_outs (s : State) : (quiet s).outs = s.outs := rfl
@[simp] theorem quiet_iface (s : State) : (quiet s).iface = s.iface := rfl
@[simp] theorem quiet_wires (s : State) : (quiet s).wires = s.wires := rfl
@[simp] theorem quiet_port (s : State) :
    (quiet s).port = { s.port with evOut := 0#4, conds := [] } := rfl

@[simp] theorem accepted_corr (t : Time) (rest : List Input) (s : State) :
    (accepted t rest s).corr = s.corr := rfl
@[simp] theorem accepted_sync (t : Time) (rest : List Input) (s : State) :
    (accepted t rest s).sync = s.sync := rfl
@[simp] theorem accepted_frame (t : Time) (rest : List Input) (s : State) :
    (accepted t rest s).frame = s.frame := rfl
@[simp] theorem accepted_outs (t : Time) (rest : List Input) (s : State) :
    (accepted t rest s).outs = s.outs := rfl
@[simp] theorem accepted_iface (t : Time) (rest : List Input) (s : State) :
    (accepted t rest s).iface = s.iface := rfl
@[simp] theorem accepted_wires (t : Time) (rest : List Input) (s : State) :
    (accepted t rest s).wires = s.wires := rfl
@[simp] theorem accepted_port (t : Time) (rest : List Input) (s : State) :
    (accepted t rest s).port = { timeIn := t, evOut := 0#4, conds := [], inputs := rest } := rfl

@[simp] theorem decideTone_corr (s : State) : (decideTone s).corr = s.corr := rfl
@[simp] theorem decideTone_sync (s : State) : (decideTone s).sync = s.sync := rfl
@[simp] theorem decideTone_frame (s : State) : (decideTone s).frame = s.frame := rfl
@[simp] theorem decideTone_outs (s : State) : (decideTone s).outs = s.outs := rfl
@[simp] theorem decideTone_iface (s : State) : (decideTone s).iface = s.iface := rfl
@[simp] theorem decideTone_wires (s : State) :
    (decideTone s).wires = { s.wires with sg := signOf s.wires.mi s.wires.mq s.wires.si s.wires.sq } := rfl
@[simp] theorem decideTone_port (s : State) : (decideTone s).port = s.port := rfl

@[simp] theorem disc_corr (s : State) : (disc s).corr = s.corr := rfl
@[simp] theorem disc_sync (s : State) : (disc s).sync = s.sync := rfl
@[simp] theorem disc_frame (s : State) : (disc s).frame = s.frame := rfl
@[simp] theorem disc_outs (s : State) : (disc s).outs = s.outs := rfl
@[simp] theorem disc_iface (s : State) : (disc s).iface = s.iface := rfl
@[simp] theorem disc_wires (s : State) :
    (disc s).wires =
      { mi := correlate (window s) .markI,
        mq := correlate (window s) .markQ,
        si := correlate (window s) .spaceI,
        sq := correlate (window s) .spaceQ,
        sg := toneSign (window s), wrapped := s.wires.wrapped } := rfl
@[simp] theorem disc_port (s : State) : (disc s).port = s.port := rfl

@[simp] theorem dcd_corr (s : State) : (dcd s).corr = s.corr := rfl
@[simp] theorem dcd_sync (s : State) :
    (dcd s).sync =
      { s.sync with dcdShreg := s.sync.dcdShreg.extractLsb' 0 1 ++ BitVec.ofBool (s.wires.sg == .mark) } := rfl
@[simp] theorem dcd_frame (s : State) : (dcd s).frame = s.frame := rfl
@[simp] theorem dcd_outs (s : State) : (dcd s).outs = s.outs := rfl
@[simp] theorem dcd_iface (s : State) : (dcd s).iface = s.iface := rfl
@[simp] theorem dcd_wires (s : State) : (dcd s).wires = s.wires := rfl
@[simp] theorem dcd_port (s : State) : (dcd s).port = s.port := rfl

@[simp] theorem bitdec_corr (s : State) : (bitdec s).corr = s.corr := rfl
@[simp] theorem bitdec_sync (s : State) :
    (bitdec s).sync = { s.sync with lasts := shiftLasts (decidedBit s) s.sync.lasts } := rfl
@[simp] theorem bitdec_frame (s : State) : (bitdec s).frame = s.frame := rfl
@[simp] theorem bitdec_outs (s : State) : (bitdec s).outs = s.outs := rfl
@[simp] theorem bitdec_iface (s : State) : (bitdec s).iface = s.iface := rfl
@[simp] theorem bitdec_wires (s : State) : (bitdec s).wires = s.wires := rfl
@[simp] theorem bitdec_port (s : State) : (bitdec s).port = s.port := rfl

@[simp] theorem abortHeader_corr (s : State) : (abortHeader s).corr = s.corr := rfl
@[simp] theorem abortHeader_sync (s : State) : (abortHeader s).sync = s.sync := rfl
@[simp] theorem abortHeader_frame (s : State) : (abortHeader s).frame = State.reset.frame := rfl
@[simp] theorem abortHeader_outs (s : State) : (abortHeader s).outs = s.outs := rfl
@[simp] theorem abortHeader_iface (s : State) : (abortHeader s).iface = s.iface := rfl
@[simp] theorem abortHeader_wires (s : State) : (abortHeader s).wires = s.wires := rfl
@[simp] theorem abortHeader_port (s : State) : (abortHeader s).port = s.port := rfl

@[simp] theorem completeMessage_corr (idx : Idx) (s : State) :
    (completeMessage idx s).corr = s.corr := rfl
@[simp] theorem completeMessage_sync (idx : Idx) (s : State) :
    (completeMessage idx s).sync = s.sync := rfl
@[simp] theorem completeMessage_frame (idx : Idx) (s : State) :
    (completeMessage idx s).frame = State.reset.frame := rfl
@[simp] theorem completeMessage_outs (idx : Idx) (s : State) :
    (completeMessage idx s).outs =
      { s.outs with
        lastMsg := memFill [] 0 (composedMessage s),
        lastMsgLen := Fin.ofNat 273 (composedMessage s).length,
        headerEnd := idx, tsHeader := s.port.timeIn } := rfl
@[simp] theorem completeMessage_iface (idx : Idx) (s : State) :
    (completeMessage idx s).iface = { s.iface with evflags := s.iface.evflags ||| 2#4 } := rfl
@[simp] theorem completeMessage_wires (idx : Idx) (s : State) :
    (completeMessage idx s).wires = s.wires := rfl
@[simp] theorem completeMessage_port (idx : Idx) (s : State) :
    (completeMessage idx s).port = { s.port with evOut := s.port.evOut ||| 2#4 } := rfl

@[simp] theorem completeEom_corr (idx : Idx) (s : State) : (completeEom idx s).corr = s.corr := rfl
@[simp] theorem completeEom_sync (idx : Idx) (s : State) : (completeEom idx s).sync = s.sync := rfl
@[simp] theorem completeEom_frame (idx : Idx) (s : State) :
    (completeEom idx s).frame = State.reset.frame := rfl
@[simp] theorem completeEom_outs (idx : Idx) (s : State) :
    (completeEom idx s).outs = { s.outs with eomEnd := idx, tsEom := s.port.timeIn, inAlert := false } := rfl
@[simp] theorem completeEom_iface (idx : Idx) (s : State) :
    (completeEom idx s).iface = { s.iface with evflags := s.iface.evflags ||| 8#4 } := rfl
@[simp] theorem completeEom_wires (idx : Idx) (s : State) :
    (completeEom idx s).wires = s.wires := rfl
@[simp] theorem completeEom_port (idx : Idx) (s : State) :
    (completeEom idx s).port = { s.port with evOut := s.port.evOut ||| 8#4 } := rfl

@[simp] theorem acknowledge_corr (mask : BitVec 4) (s : State) :
    (acknowledge mask s).corr = s.corr := rfl
@[simp] theorem acknowledge_sync (mask : BitVec 4) (s : State) :
    (acknowledge mask s).sync = s.sync := rfl
@[simp] theorem acknowledge_frame (mask : BitVec 4) (s : State) :
    (acknowledge mask s).frame = s.frame := rfl
@[simp] theorem acknowledge_outs (mask : BitVec 4) (s : State) :
    (acknowledge mask s).outs = s.outs := rfl
@[simp] theorem acknowledge_iface (mask : BitVec 4) (s : State) :
    (acknowledge mask s).iface = { s.iface with evflags := s.iface.evflags &&& ~~~mask } := rfl
@[simp] theorem acknowledge_wires (mask : BitVec 4) (s : State) :
    (acknowledge mask s).wires = s.wires := rfl
@[simp] theorem acknowledge_port (mask : BitVec 4) (s : State) :
    (acknowledge mask s).port = s.port := rfl

end Sys2Proof.Machine
end

