-- ==== Sys2Proof/Laws/Frame.lean ====
section
/-! SUPPORT. What the operations of the Frame Decoder can do: the cases of `submit`, what it leaves
alone, and the length of a composed message. -/

namespace Sys2Proof.Machine

/-- The header window, cell by cell. -/
theorem headBytes_eq (s : State) :
    headBytes s = [memRead s.frame.head 0, memRead s.frame.head 1, memRead s.frame.head 2,
      memRead s.frame.head 3] := rfl

/-- Everything the header comparison can do (R113). -/
theorem compareHeader_cases (idx : Idx) (s : State) :
    (headBytes s = Config.hdrBegin ∧ compareHeader idx s =
        { s with
          outs.headerStart := idx, outs.inAlert := true
          frame := { State.reset.frame with phase := .readingMessage }
          iface.evflags := s.iface.evflags ||| 1#4, port.evOut := s.port.evOut ||| 1#4 }) ∨
      (headBytes s = Config.eom ∧ compareHeader idx s =
        { s with
          outs.eomStart := idx
          frame := { State.reset.frame with phase := .readingEom }
          iface.evflags := s.iface.evflags ||| 4#4, port.evOut := s.port.evOut ||| 4#4 }) ∨
      (headBytes s ≠ Config.hdrBegin ∧ headBytes s ≠ Config.eom ∧ compareHeader idx s =
        { s with
          frame := State.reset.frame, port.conds := s.port.conds ++ [.negativeMatch] }) := by
  unfold compareHeader
  by_cases h1 : headBytes s = Config.hdrBegin
  · rw [if_pos h1]; exact .inl ⟨h1, rfl⟩
  · by_cases h2 : headBytes s = Config.eom
    · rw [if_neg h1, if_pos h2]; exact .inr (.inl ⟨h2, rfl⟩)
    · rw [if_neg h1, if_neg h2]; exact .inr (.inr ⟨h1, h2, rfl⟩)

/-- Where there is room the byte is stored at `headlen` (R112). -/
theorem appendHead_room {s : State} (h : s.frame.headlen.val < 4) (b : Byte) :
    appendHead b s = { s with
      frame.head := memWrite s.frame.head s.frame.headlen.val b
      frame.headlen := s.frame.headlen + 1 } := if_pos h

/-- In a full window nothing is stored (R112). -/
theorem appendHead_full {s : State} (h : s.frame.headlen.val = 4) (b : Byte) : appendHead b s = s :=
  if_neg (by rw [h]; decide)

/-- The counter of stored header bytes goes up by one (R112). -/
theorem appendHead_headlen {s : State} (h : s.frame.headlen.val < 4) (b : Byte) :
    (appendHead b s).frame.headlen.val = s.frame.headlen.val + 1 := by
  rw [appendHead_room h]
  exact Fin.val_add_one_of_lt (Fin.lt_def.mpr h)

/-- A byte below the fourth is only stored (R112). -/
theorem headerByte_store {s : State} (h : s.frame.headlen.val < 3) (b : Byte) (idx : Idx) :
    headerByte b idx s = { s with
      frame.head := memWrite s.frame.head s.frame.headlen.val b
      frame.headlen := s.frame.headlen + 1 } := by
  have h4 := appendHead_headlen (s := s) (by omega) b
  rw [headerByte, if_neg (by simp only [Config.headLen]; omega), appendHead_room (by omega)]

/-- The fourth byte is stored and the window compared (R112, R113). -/
theorem headerByte_compare {s : State} (h : s.frame.headlen.val = 3) (b : Byte) (idx : Idx) :
    headerByte b idx s = compareHeader idx { s with
      frame.head := memWrite s.frame.head 3 b
      frame.headlen := 4 } := by
  have h4 := appendHead_headlen (s := s) (by omega) b
  have hl : s.frame.headlen = 3 := Fin.ext h
  rw [headerByte, if_pos (by simp only [Config.headLen]; omega), appendHead_room (by omega), hl]
  rfl

/-- A window that is full already is compared as it stands (R112; no run reaches it). -/
theorem headerByte_full {s : State} (h : s.frame.headlen.val = 4) (b : Byte) (idx : Idx) :
    headerByte b idx s = compareHeader idx s := by
  rw [headerByte, appendHead_full h, if_pos h]

/-- The null byte cases of `submit` (R116 to R119). -/
theorem submit_null (idx : Idx) (s : State) :
    submit 0#8 idx s = match s.frame.phase with
      | .idle => s
      | .headerSearch => abortHeader s
      | .readingMessage => completeMessage idx s
      | .readingEom => completeEom idx s := rfl

/-- The data byte cases of `submit` (R111 to R115). -/
theorem submit_data {b : Byte} (hb : b ≠ 0#8) (idx : Idx) (s : State) :
    submit b idx s = match s.frame.phase with
      | .idle => headerByte b idx (setPhase .headerSearch s)
      | .headerSearch => headerByte b idx s
      | .readingMessage => messageByte b s
      | .readingEom => s := by
  rw [submit, if_neg hb]; rfl

/-- What the header search leaves alone. -/
theorem headerByte_frame (b : Byte) (idx : Idx) (s : State) :
    (headerByte b idx s).corr = s.corr ∧ (headerByte b idx s).sync = s.sync
      ∧ (headerByte b idx s).wires = s.wires ∧ (headerByte b idx s).iface.cmderr = s.iface.cmderr
      ∧ (headerByte b idx s).port.timeIn = s.port.timeIn
      ∧ (headerByte b idx s).port.inputs = s.port.inputs := by
  unfold headerByte compareHeader appendHead
  split_ifs <;> exact ⟨rfl, rfl, rfl, rfl, rfl, rfl⟩

/-- What a message byte leaves alone. -/
theorem messageByte_frame (b : Byte) (s : State) :
    (messageByte b s).corr = s.corr ∧ (messageByte b s).sync = s.sync
      ∧ (messageByte b s).wires = s.wires ∧ (messageByte b s).iface = s.iface
      ∧ (messageByte b s).outs = s.outs ∧ (messageByte b s).frame.phase = s.frame.phase
      ∧ (messageByte b s).port.timeIn = s.port.timeIn
      ∧ (messageByte b s).port.inputs = s.port.inputs := by
  unfold messageByte
  split_ifs <;> exact ⟨rfl, rfl, rfl, rfl, rfl, rfl, rfl, rfl⟩

/-- `submit` leaves everything outside the Frame Decoder and its outputs alone (R5). -/
theorem submit_frame (b : Byte) (idx : Idx) (s : State) :
    (submit b idx s).corr = s.corr ∧ (submit b idx s).sync = s.sync
      ∧ (submit b idx s).wires = s.wires ∧ (submit b idx s).iface.cmderr = s.iface.cmderr
      ∧ (submit b idx s).port.timeIn = s.port.timeIn
      ∧ (submit b idx s).port.inputs = s.port.inputs := by
  by_cases hb : b = 0#8
  · subst hb
    rw [submit_null]
    split <;> exact ⟨rfl, rfl, rfl, rfl, rfl, rfl⟩
  · rw [submit_data hb]
    split
    · exact headerByte_frame b idx (setPhase .headerSearch s)
    · exact headerByte_frame b idx s
    · obtain ⟨h1, h2, h3, h4, -, -, h5, h6⟩ := messageByte_frame b s
      exact ⟨h1, h2, h3, by rw [h4], h5, h6⟩
    · exact ⟨rfl, rfl, rfl, rfl, rfl, rfl⟩

@[simp] theorem submit_corr (b : Byte) (idx : Idx) (s : State) : (submit b idx s).corr = s.corr :=
  (submit_frame b idx s).1
@[simp] theorem submit_sync (b : Byte) (idx : Idx) (s : State) : (submit b idx s).sync = s.sync :=
  (submit_frame b idx s).2.1
@[simp] theorem submit_wires (b : Byte) (idx : Idx) (s : State) : (submit b idx s).wires = s.wires :=
  (submit_frame b idx s).2.2.1
@[simp] theorem submit_cmderr (b : Byte) (idx : Idx) (s : State) :
    (submit b idx s).iface.cmderr = s.iface.cmderr := (submit_frame b idx s).2.2.2.1
@[simp] theorem submit_timeIn (b : Byte) (idx : Idx) (s : State) :
    (submit b idx s).port.timeIn = s.port.timeIn := (submit_frame b idx s).2.2.2.2.1
@[simp] theorem submit_inputs (b : Byte) (idx : Idx) (s : State) :
    (submit b idx s).port.inputs = s.port.inputs := (submit_frame b idx s).2.2.2.2.2

/-- The meaning of a selected `submit` case is `submit`. -/
theorem exec_decodeSubmit (b : Byte) (idx : Idx) (s : State) :
    exec (decode (.frameByte s.frame.phase b idx)) s = .next (submit b idx s) := by
  simp only [decode, decodeSubmit, submit]
  by_cases hb : b = 0#8
  · simp only [hb, if_true]
    cases s.frame.phase <;> rfl
  · simp only [hb, if_false]
    cases s.frame.phase <;> rfl

/-! ### The composed message -/

/-- Cutting after the last hyphen never lengthens a text. -/
theorem truncateText_length_le (text : List Byte) : (truncateText text).length ≤ text.length := by
  unfold truncateText
  split
  · exact le_refl _
  · rw [List.length_take]; omega

/-- A text without a hyphen has no last hyphen. -/
theorem lastHyphenEnd_eq_zero {text : List Byte} (h : ∀ b ∈ text, b ≠ Config.hyphen) :
    lastHyphenEnd text = 0 := by
  induction text with
  | nil => rfl
  | cons b bs ih =>
    have hbs := ih fun c hc => h c (by simp [hc])
    rw [lastHyphenEnd, hbs]
    simp [h b (by simp)]

/-- The last hyphen of a text is the one no hyphen follows. -/
theorem lastHyphenEnd_append {body tail : List Byte} (h : ∀ b ∈ tail, b ≠ Config.hyphen) :
    lastHyphenEnd (body ++ Config.hyphen :: tail) = body.length + 1 := by
  induction body with
  | nil => simp [lastHyphenEnd, lastHyphenEnd_eq_zero h]
  | cons b bs ih =>
    rw [List.cons_append, lastHyphenEnd, ih]
    simp

/-- A text with a hyphen is cut after its last one (R118). -/
theorem truncateText_append {body tail : List Byte} (h : ∀ b ∈ tail, b ≠ Config.hyphen) :
    truncateText (body ++ Config.hyphen :: tail) = body ++ [Config.hyphen] := by
  rw [truncateText, lastHyphenEnd_append h, if_neg (by omega),
    show body ++ Config.hyphen :: tail = (body ++ [Config.hyphen]) ++ tail by simp]
  rw [List.take_left' (by simp)]

/-- A composed message fits `LASTMSG` (R25). -/
theorem composedMessage_length_le (s : State) : (composedMessage s).length ≤ Config.lastMsgCap := by
  have h := truncateText_length_le (msgBytes s)
  have hm : (msgBytes s).length = s.frame.msglen.val := memCells_length _ _
  have := s.frame.msglen.isLt
  simp only [composedMessage, List.length_append, Config.hdrBegin, List.length_cons, List.length_nil,
    Config.lastMsgCap]
  omega

/-- The length counter of a composed message is its length. -/
theorem composedMessage_len_val (s : State) :
    (Fin.ofNat 273 (composedMessage s).length).val = (composedMessage s).length := by
  have := composedMessage_length_le s
  simp only [Config.lastMsgCap] at this
  exact Nat.mod_eq_of_lt (by omega)

end Sys2Proof.Machine
end

