-- ==== Sys2Proof/Laws/PerInstr.lean ====
section
/-! SUPPORT. Facts about the instructions as syntax, one lemma per constructor. -/

namespace Sys2Proof.Laws.RowFormat

open Sys2Proof

/-- What the encoder gives agrees with the format of the row in spec/opcode_table.json (R72): an `INTERNAL`
row has no encoding; a `CMD` row has a command word and every operand value is well formed (R64); a
`FRAME_BYTE` row has a byte, and the term is well formed exactly where a data case carries a byte other
than 0 (R67, R111). -/
def Statement (i : Instr) : Prop :=
  match encode i with
  | none => isInternal i = true
  | some (.cmd _) => isInternal i = false ∧ wellFormed i = true
  | some (.frameByte p b idx) =>
    isInternal i = false
      ∧ (wellFormed i = true ↔ (b ≠ 0#8 ∨ i = decodeSubmit p 0#8 idx))

theorem nop : Statement .nop := ⟨rfl, rfl⟩
theorem sample (x : Sample) : Statement (.sample x) := ⟨rfl, rfl⟩
theorem flush : Statement .flush := ⟨rfl, rfl⟩
theorem clear : Statement .clear := ⟨rfl, rfl⟩
theorem ack (mask : BitVec 4) : Statement (.ack mask) := ⟨rfl, rfl⟩
theorem reserved5 : Statement .reserved5 := ⟨rfl, rfl⟩
theorem reserved6 : Statement .reserved6 := ⟨rfl, rfl⟩
theorem reserved7 : Statement .reserved7 := ⟨rfl, rfl⟩
theorem table : Statement .table := rfl
theorem corr (ref : RefTable) : Statement (.corr ref) := rfl
theorem disc : Statement .disc := rfl
theorem dcd : Statement .dcd := rfl
theorem integ : Statement .integ := rfl
theorem dlladj : Statement .dlladj := rfl
theorem phadv : Statement .phadv := rfl
theorem bitdec : Statement .bitdec := rfl
theorem prelock : Statement .prelock := rfl
theorem bytecnt : Statement .bytecnt := rfl
theorem classifyPass : Statement .classifyPass := rfl
theorem classifyFail : Statement .classifyFail := rfl
theorem submitDIdle (b : Byte) (idx : Idx) : Statement (.submitDIdle b idx) := by
  simp [Statement, encode, isInternal, wellFormed, dataByteOk, decodeSubmit]
theorem submitDHs (b : Byte) (idx : Idx) : Statement (.submitDHs b idx) := by
  simp [Statement, encode, isInternal, wellFormed, dataByteOk, decodeSubmit]
theorem submitDMsg (b : Byte) (idx : Idx) : Statement (.submitDMsg b idx) := by
  simp [Statement, encode, isInternal, wellFormed, dataByteOk, decodeSubmit]
theorem submitDEom (b : Byte) (idx : Idx) : Statement (.submitDEom b idx) := by
  simp [Statement, encode, isInternal, wellFormed, dataByteOk, decodeSubmit]
theorem submitNIdle (idx : Idx) : Statement (.submitNIdle idx) := by
  simp [Statement, encode, isInternal, wellFormed, decodeSubmit]
theorem submitNHs (idx : Idx) : Statement (.submitNHs idx) := by
  simp [Statement, encode, isInternal, wellFormed, decodeSubmit]
theorem submitNMsg (idx : Idx) : Statement (.submitNMsg idx) := by
  simp [Statement, encode, isInternal, wellFormed, decodeSubmit]
theorem submitNEom (idx : Idx) : Statement (.submitNEom idx) := by
  simp [Statement, encode, isInternal, wellFormed, decodeSubmit]

end Sys2Proof.Laws.RowFormat
end

