-- ==== Sys2Proof/Laws/Sync.lean ====
section
/-! SUPPORT. What the operations of the Bit Synchronizer and the decision step can do. -/

namespace Sys2Proof.Machine

/-- `INTEG` changes `integ` alone. -/
theorem integ_eq (s : State) : integ s = { s with sync.integ := (integ s).sync.integ } := by
  unfold integ
  cases s.wires.sg <;> dsimp only <;> (try split) <;> rfl

/-- The new value of `integ` (R92). -/
theorem integ_toInt (s : State) : (integ s).sync.integ.toInt =
    if s.wires.sg = .mark ∧ s.sync.integ.toInt < 10 then s.sync.integ.toInt + 1
    else if s.wires.sg = .space ∧ -10 < s.sync.integ.toInt then s.sync.integ.toInt - 1
    else s.sync.integ.toInt := by
  have key : ∀ v : BitVec 5,
      (v.toInt < 10 → (v + 1#5).toInt = v.toInt + 1)
        ∧ (-10 < v.toInt → (v - 1#5).toInt = v.toInt - 1) := by decide
  obtain ⟨hup, hdown⟩ := key s.sync.integ
  unfold integ
  cases h : s.wires.sg <;> simp only [reduceCtorEq, true_and, false_and, if_false, Config.integMax]
  · split
    · exact hup ‹_›
    · rfl
  · split
    · exact hdown ‹_›
    · rfl

/-- `DLLADJ` changes `sphase` alone. -/
theorem dlladj_eq (s : State) : dlladj s = { s with sync.sphase := (dlladj s).sync.sphase } := by
  unfold dlladj
  split <;> rfl

/-- A nudged phase stays below `PHASE_MOD` (R93). -/
theorem nudged_lt {p : Nat} (h : p < 65536) : nudged p < 65536 := by
  simp only [nudged, correction, Config.centreThr, Config.lowGuard, Config.highGuard, Config.phaseMod,
    Config.gainNum, Config.gainDen, Config.maxStep]
  split_ifs <;> omega

/-- The new value of `sphase` (R93). -/
theorem dlladj_toNat (s : State) : (dlladj s).sync.sphase.toNat =
    if transition s then nudged s.sync.sphase.toNat else s.sync.sphase.toNat := by
  unfold dlladj
  split
  · exact Nat.mod_eq_of_lt (nudged_lt s.sync.sphase.isLt)
  · rfl

/-- The advance wraps at `PHASE_MOD` (R94). -/
theorem wraps_eq (p : Nat) : wraps p = decide (65536 ≤ p + 3096) := rfl

/-- What the accumulator keeps after a wrap (R94, `WRAP = modulo`). -/
theorem afterWrap_eq (t : Nat) : afterWrap t = t - 65536 := rfl

/-- The advanced phase (R94). -/
theorem advanced_eq {p : Nat} (h : p < 65536) : advanced p = (p + 3096) % 65536 := by
  have hw : wraps p = true ↔ 65536 ≤ p + 3096 := decide_eq_true_iff
  rw [advanced, afterWrap_eq]
  dsimp only [Config.phaseInc]
  by_cases hb : wraps p = true
  · have := hw.mp hb
    rw [if_pos hb]
    omega
  · have := mt hw.mpr hb
    rw [if_neg hb, Nat.mod_eq_of_lt (by omega)]

/-- The new value of `sphase` (R94). -/
theorem phadv_toNat (s : State) :
    (phadv s).sync.sphase.toNat = (s.sync.sphase.toNat + 3096) % 65536 := by
  have h := advanced_eq s.sync.sphase.isLt
  show advanced s.sync.sphase.toNat % 65536 = _
  rw [h, Nat.mod_mod]

/-- The part of a decision step before a bit is decided changes only `dcd_shreg`, `integ`, `sphase` and
the wire `wrapped` (R90 to R94). -/
theorem loop_eq (s : State) : ∃ d n q r, phadv (dlladj (integ (dcd s))) =
    { s with
      sync.dcdShreg := d, sync.integ := n, sync.sphase := q
      wires.wrapped := r } ∧
    (-10 ≤ s.sync.integ.toInt → s.sync.integ.toInt ≤ 10 → -10 ≤ n.toInt ∧ n.toInt ≤ 10) := by
  have hn := integ_toInt (dcd s)
  have hi := integ_eq (dcd s)
  have hd := dlladj_eq (integ (dcd s))
  have hp : ∀ u : State, ∃ q r, phadv u =
      { u with
        sync.sphase := q
        wires.wrapped := r } := fun u => ⟨_, _, rfl⟩
  obtain ⟨q, r, hp⟩ := hp (dlladj (integ (dcd s)))
  refine ⟨(dcd s).sync.dcdShreg, (integ (dcd s)).sync.integ, q, r, ?_, ?_⟩
  · rw [hp, hd, hi]
    rfl
  · intro h1 h2
    rw [show (dcd s).sync.integ = s.sync.integ from rfl] at hn
    split_ifs at hn <;> omega

/-- Everything `BYTECNT` can do (R97 to R99). -/
theorem bytecnt_cases (s : State) :
    (s.sync.lock = false ∧ bytecnt s = s) ∨
      (s.sync.lock = true ∧ s.sync.bitcnt.toNat < 7 ∧
        bytecnt s = { s with sync.bitcnt := s.sync.bitcnt + 1#3 }) ∨
      (s.sync.lock = true ∧ s.sync.bitcnt.toNat = 7 ∧ allowed s.sync.lasts = true ∧
        bytecnt s = { submit s.sync.lasts s.corr.curIdx s with sync.bitcnt := 0#3 }) ∨
      (s.sync.lock = true ∧ s.sync.bitcnt.toNat = 7 ∧ allowed s.sync.lasts = false ∧
        bytecnt s = { submit 0#8 s.corr.curIdx
            { s with sync.lock := false, port.conds := s.port.conds ++ [.framingFailure] } with
          sync.bitcnt := 0#3 }) := by
  have hb := s.sync.bitcnt.isLt
  unfold bytecnt
  cases hl : s.sync.lock
  · exact .inl ⟨rfl, by rw [if_neg (by simp)]⟩
  · rw [if_pos rfl]
    by_cases h7 : s.sync.bitcnt.toNat + 1 = 8
    · rw [if_pos h7]
      cases ha : allowed s.sync.lasts
      · refine .inr (.inr (.inr ⟨rfl, by omega, rfl, ?_⟩))
        simp only [classify, classifyFail, ha]
        rfl
      · refine .inr (.inr (.inl ⟨rfl, by omega, rfl, ?_⟩))
        simp only [classify, classifyPass, ha, if_true]
    · exact .inr (.inl ⟨rfl, by omega, by rw [if_neg h7]⟩)

/-- Everything a decided bit can lead to (R95 to R97): a preamble match or a counted bit. -/
theorem prelock_cases (s : State) :
    (s.sync.lasts = Config.preamble ∧ s.frame.phase ≠ .readingMessage ∧
        prelock s = { s with sync.lock := true, sync.bitcnt := 0#3 }) ∨
      ((s.sync.lasts ≠ Config.preamble ∨ s.frame.phase = .readingMessage) ∧
        prelock s = bytecnt s) := by
  unfold prelock
  by_cases h : s.sync.lasts = Config.preamble ∧ s.frame.phase ≠ .readingMessage
  · exact .inl ⟨h.1, h.2, if_pos h⟩
  · exact .inr ⟨by tauto, if_neg h⟩

/-- Everything a decision step can do after `DISC` (R90): the loop moves; without a wrap that is all; with
one, a bit enters `lasts` and is a preamble match or a counted bit. -/
theorem stepFromTone_cases (s : State) : ∃ d n q r,
    (-10 ≤ s.sync.integ.toInt → s.sync.integ.toInt ≤ 10 → -10 ≤ n.toInt ∧ n.toInt ≤ 10) ∧
    ((stepFromTone s =
        { s with
          sync.dcdShreg := d, sync.integ := n, sync.sphase := q
          wires.wrapped := r }) ∨
      ∃ l, stepFromTone s = prelock
        { s with
          sync.dcdShreg := d, sync.integ := n, sync.sphase := q, sync.lasts := l
          wires.wrapped := r }) := by
  obtain ⟨d, n, q, r, h, hn⟩ := loop_eq s
  refine ⟨d, n, q, r, hn, ?_⟩
  unfold stepFromTone
  rw [h]
  dsimp only
  cases r
  · exact .inl rfl
  · exact .inr ⟨_, rfl⟩

end Sys2Proof.Machine
end

