-- ==== Sys2Proof/Laws/Step.lean ====
section
/-! SUPPORT. What the host commands and a step can do. -/

namespace Sys2Proof.Machine

/-- What an operation leaves, as a function: `exec` never stops (R140). -/
def effect : Instr → State → State
  | .nop, s => s
  | .sample x, s => sample x s
  | .flush, s => flush s
  | .clear, s => resetRegisters s
  | .ack m, s => acknowledge m s
  | .reserved5, s => reservedCommand s
  | .reserved6, s => reservedCommand s
  | .reserved7, s => reservedCommand s
  | .table, s => s
  | .corr ref, s => corr ref s
  | .disc, s => disc s
  | .dcd, s => dcd s
  | .integ, s => integ s
  | .dlladj, s => dlladj s
  | .phadv, s => phadv s
  | .bitdec, s => bitdec s
  | .prelock, s => prelock s
  | .bytecnt, s => bytecnt s
  | .classifyPass, s => classifyPass s
  | .classifyFail, s => classifyFail s
  | .submitDIdle b idx, s => firstByte b idx s
  | .submitDHs b idx, s => headerByte b idx s
  | .submitDMsg b _, s => messageByte b s
  | .submitDEom _ _, s => s
  | .submitNIdle _, s => s
  | .submitNHs _, s => abortHeader s
  | .submitNMsg idx, s => completeMessage idx s
  | .submitNEom idx, s => completeEom idx s

/-- `exec` answers the next state that `effect` gives, for every operation. -/
theorem exec_eq_effect (i : Instr) (s : State) : exec i s = .next (effect i s) := by
  cases i <;> rfl

/-- The eight operations a command word can decode to (R62). -/
theorem decodeCmd_cases (w : CmdWord) :
    decodeCmd w = .nop ∨ (∃ x, decodeCmd w = .sample x) ∨ decodeCmd w = .flush
      ∨ decodeCmd w = .clear ∨ (∃ m, decodeCmd w = .ack m) ∨ decodeCmd w = .reserved5
      ∨ decodeCmd w = .reserved6 ∨ decodeCmd w = .reserved7 := by
  unfold decodeCmd
  split <;> simp

/-- Where a step goes, input by input. -/
theorem step_eq (s : State) : step s = .next (match s.port.inputs with
    | [] => quiet s
    | .rst :: rest => hardReset rest s
    | .cmd w t :: rest => effect (decodeCmd w) (accepted t rest s)
    | .tone sg idx t :: rest => toneStep sg idx (accepted t rest s)
    | .byte b idx t :: rest => submit b idx (accepted t rest s)) := by
  unfold step
  cases s.port.inputs with
  | nil => rfl
  | cons i rest =>
    cases i with
    | rst => rfl
    | cmd w t => exact exec_eq_effect _ _
    | tone sg idx t => rfl
    | byte b idx t => exact exec_decodeSubmit b idx (accepted t rest s)

/-- When a sample completes a window (R131). -/
theorem fires_iff (s : State) :
    fires s = true ↔ s.corr.fill.val = 41 ∨ (s.corr.fill.val = 42 ∧ s.sync.subsamp = 1#1) := by
  have hf := s.corr.fill.isLt
  have hs : s.sync.subsamp.toNat + 1 = 2 ↔ s.sync.subsamp = 1#1 := by
    rw [← BitVec.toNat_inj]
    show _ ↔ _ = 1
    omega
  unfold fires
  simp only [Config.corrLen, Config.subsamp]
  split
  · rw [decide_eq_true_iff]; omega
  · rw [decide_eq_true_iff, hs]
    have : s.corr.fill.val = 42 := by omega
    simp [this]

/-- A sample below the first full window is only taken in. -/
theorem sample_warm {x : Sample} {s : State} (h : s.corr.fill.val < 41) : sample x s =
    { s with
      corr.win := shiftWin s.corr.win x, corr.fill := s.corr.fill + 1
      corr.nsamp := s.corr.nsamp + 1#64 } := by
  have hf : fires s = false := by
    rw [← Bool.not_eq_true, fires_iff]; omega
  have h1 : nextFill s = s.corr.fill + 1 := if_pos (by simp only [Config.corrLen]; omega)
  have h2 : nextSubsamp s = s.sync.subsamp := by
    rw [nextSubsamp, hf, if_neg Bool.false_ne_true, if_pos (by simp only [Config.corrLen]; omega)]
  rw [sample, hf, if_neg Bool.false_ne_true, acceptSample, h1, h2]

/-- A sample between two decision steps is only taken in. -/
theorem sample_between {x : Sample} {s : State} (h : s.corr.fill.val = 42)
    (hs : s.sync.subsamp = 0#1) : sample x s =
    { s with
      corr.win := shiftWin s.corr.win x, corr.nsamp := s.corr.nsamp + 1#64
      sync.subsamp := 1#1 } := by
  have hf : fires s = false := by
    rw [← Bool.not_eq_true, fires_iff, hs, h]; decide
  have h1 : nextFill s = s.corr.fill := if_neg (by simp only [Config.corrLen]; omega)
  have h2 : nextSubsamp s = 1#1 := by
    rw [nextSubsamp, hf, if_neg Bool.false_ne_true, if_neg (by simp only [Config.corrLen]; omega), hs]
    rfl
  rw [sample, hf, if_neg Bool.false_ne_true, acceptSample, h1, h2]

/-- A sample that completes a window: taken in, then one decision step (R131). -/
theorem sample_fires {x : Sample} {s : State}
    (h : s.corr.fill.val = 41 ∨ (s.corr.fill.val = 42 ∧ s.sync.subsamp = 1#1)) : sample x s =
    decisionStep (s.corr.nsamp + 1#64 - 42#64) { s with
      corr.win := shiftWin s.corr.win x, corr.fill := 42
      corr.nsamp := s.corr.nsamp + 1#64, sync.subsamp := 0#1 } := by
  have hf : fires s = true := (fires_iff s).mpr h
  have h1 : nextFill s = 42 := by
    unfold nextFill
    rcases h with h | ⟨h, -⟩
    · rw [if_pos (by simp only [Config.corrLen]; omega), show s.corr.fill = 41 from Fin.ext h]
      rfl
    · rw [if_neg (by simp only [Config.corrLen]; omega)]
      exact Fin.ext h
  have h2 : nextSubsamp s = 0#1 := by rw [nextSubsamp, hf, if_pos rfl]
  rw [sample, hf, if_pos rfl, acceptSample, h1, h2]

/-- The cases of `SAMPLE` (R131), for every state. -/
theorem sample_cases (s : State) :
    s.corr.fill.val < 41 ∨ (s.corr.fill.val = 42 ∧ s.sync.subsamp = 0#1) ∨
      (s.corr.fill.val = 41 ∨ (s.corr.fill.val = 42 ∧ s.sync.subsamp = 1#1)) := by
  have hf := s.corr.fill.isLt
  have hb : ∀ v : BitVec 1, v = 0#1 ∨ v = 1#1 := by decide
  by_cases h1 : s.corr.fill.val < 41
  · exact .inl h1
  by_cases h2 : s.corr.fill.val = 41
  · exact .inr (.inr (.inl h2))
  have h3 : s.corr.fill.val = 42 := by omega
  rcases hb s.sync.subsamp with h | h
  · exact .inr (.inl ⟨h3, h⟩)
  · exact .inr (.inr (.inr ⟨h3, h⟩))

/-- Everything a `SAMPLE` can do (R131), with the shifted window under a name of its own: `shiftWin` is 42
writes deep, and a proof that takes its cases from here never unfolds it. -/
theorem sample_spec (x : Sample) (s : State) : ∃ win',
    (Memory.wf Config.corrLen s.corr.win → Memory.wf Config.corrLen win' ∧ ∀ a, memRead win' a =
      if a = 41 then x else if a < 41 then memRead s.corr.win (a + 1) else memRead s.corr.win a) ∧
    ((s.corr.fill.val < 41 ∧ sample x s = { s with
        corr.win := win', corr.fill := s.corr.fill + 1, corr.nsamp := s.corr.nsamp + 1#64 }) ∨
      (s.corr.fill.val = 42 ∧ s.sync.subsamp = 0#1 ∧ sample x s = { s with
        corr.win := win', corr.nsamp := s.corr.nsamp + 1#64, sync.subsamp := 1#1 }) ∨
      ((s.corr.fill.val = 41 ∨ (s.corr.fill.val = 42 ∧ s.sync.subsamp = 1#1)) ∧
        sample x s = stepFromTone (disc { s with
          corr.win := win', corr.fill := 42, corr.nsamp := s.corr.nsamp + 1#64
          corr.curIdx := s.corr.nsamp + 1#64 - 42#64, sync.subsamp := 0#1 }))) := by
  refine ⟨shiftWin s.corr.win x, fun h => ⟨shiftWin_wf h x, memRead_shiftWin h x⟩, ?_⟩
  rcases sample_cases s with h | ⟨h, hs⟩ | h
  · exact .inl ⟨h, sample_warm h⟩
  · exact .inr (.inl ⟨h, hs, sample_between h hs⟩)
  · refine .inr (.inr ⟨h, ?_⟩)
    rw [sample_fires h]
    generalize shiftWin s.corr.win x = win'
    rfl

end Sys2Proof.Machine
end

