-- ==== Sys2Proof/Laws/Text.lean ====
section
/-! SUPPORT. Allowed text (R66, R67) through the operations that store text bytes: an empty space, one byte
appended, the composed message. -/

namespace Sys2Proof.Safety

open Sys2Proof.Machine

/-- An empty space of length 0. -/
theorem allowedBelow_nil : AllowedBelow [] 0 :=
  ⟨fun _ h => absurd h (Nat.not_lt_zero _), fun _ h => nomatch h⟩

/-- Appending an allowed byte at the length counter (R112, R114). -/
theorem allowedBelow_append {size n : Nat} {m : Memory 8} {b : Byte} (hm : Memory.wf size m)
    (h : AllowedBelow m n) (hb : allowed b = true) : AllowedBelow (memWrite m n b) (n + 1) := by
  refine ⟨fun i hi => ?_, fun c hc => ?_⟩
  · rw [memRead_memWrite hm]
    split
    · exact hb
    · exact h.1 i (by omega)
  · rcases mem_memWrite hc with hc | ⟨rfl, -⟩
    · exact h.2 c hc
    · exact hb

/-- Every byte of the composed message of an allowed text is allowed (R118). -/
theorem allowed_of_mem_composedMessage {s : State} {b : Byte}
    (h : ∀ i, i < s.frame.msglen.val → allowed (memRead s.frame.msg i) = true)
    (hb : b ∈ composedMessage s) : allowed b = true := by
  rcases List.mem_append.mp hb with hb | hb
  · exact (by decide : ∀ b ∈ Config.hdrBegin, allowed b = true) b hb
  · have hb : b ∈ msgBytes s := by
      unfold truncateText at hb
      split at hb
      · exact hb
      · exact List.mem_of_mem_take hb
    obtain ⟨i, hi, rfl⟩ := List.mem_map.mp hb
    exact h i (List.mem_range.mp hi)

/-- Filling an empty space with allowed bytes, as R118 fills `LASTMSG`. -/
theorem allowedBelow_memFill {size : Nat} {vs : List Byte} (hs : vs.length ≤ size)
    (h : ∀ b ∈ vs, allowed b = true) : AllowedBelow (memFill [] 0 vs) vs.length := by
  refine ⟨fun i hi => ?_, fun c hc => ?_⟩
  · rw [memRead_memFill (Memory.wf_nil size) (by omega), if_pos (by omega)]
    rw [Nat.sub_zero, List.getD_eq_getElem _ _ hi]
    exact h _ (List.getElem_mem hi)
  · rcases mem_memFill hc with hc | ⟨-, -, hv, -⟩
    · cases hc
    · exact h _ hv

end Sys2Proof.Safety
end

