-- ==== Sys2Proof/Tests/Slice0.lean ====
section
/-! SUPPORT. Tests: the well-formedness smoke test, every constructor's decoding from a word written out
from 30_encoding.md, one-step results taken from the worked examples of the rules and from
95_test_vectors.md (the vector is named at each), and, for every statement with hypotheses, a witness
that meets them. -/

namespace Sys2Proof.Tests

open Sys2Proof.Machine Sys2Proof.Safety

/-! ### Helpers -/

/-- The state a next outcome holds. -/
def got (s : State) : Host.Outcome State Fault Refusal → State
  | .next t => t
  | _ => s

/-- What one step leaves with `i` as the only input. -/
def after (i : Input) (s : State) : State := got s (step { s with port.inputs := [i] })

/-- What one operation leaves. -/
def ran (i : Instr) (s : State) : State := got s (exec i s)

/-- The state after `a`, `b`, `c`, in `HeaderSearch`. -/
def searching (a b c : Byte) : State :=
  { State.reset with
    sync.lock := true, frame.phase := .headerSearch
    frame.head := [(0, a), (1, b), (2, c)], frame.headlen := 3 }

/-- `ReadingMessage` with the text `-ABC-xy` (vector P6). -/
def reading : State :=
  { State.reset with
    sync.lock := true, frame.phase := .readingMessage, outs.inAlert := true
    frame.msg := [(0, 0x2D), (1, 0x41), (2, 0x42), (3, 0x43), (4, 0x2D), (5, 0x78), (6, 0x79)]
    frame.msglen := 7, corr.curIdx := 5000 }

/-- `ReadingMessage` with a full buffer; the stored text is one hyphen and zero cells. -/
def saturated : State :=
  { reading with frame.msg := [(0, 0x2D)], frame.msglen := 268 }

/-- `ReadingEOM`. -/
def inEom : State :=
  { State.reset with sync.lock := true, frame.phase := .readingEom, outs.inAlert := true }

/-- Vector S8: one bit before a preamble match. -/
def s8 : State :=
  { State.reset with
    sync.lasts := 0x56, sync.integ := 4, sync.sphase := 63000, sync.dcdShreg := 3
    sync.lock := true, sync.bitcnt := 5 }

/-- Vector S9: the same in `ReadingMessage` with the text `-AB-x`. -/
def s9 : State :=
  { s8 with
    sync.bitcnt := 7, frame.phase := .readingMessage, outs.inAlert := true
    frame.msg := [(0, 0x2D), (1, 0x41), (2, 0x42), (3, 0x2D), (4, 0x78)], frame.msglen := 5 }

/-- Vector S10: one bit before the byte `Z` is complete. -/
def s10 : State :=
  { State.reset with
    sync.lasts := 0xB4, sync.integ := -3, sync.sphase := 64000, sync.lock := true, sync.bitcnt := 7 }

/-- Vector S14: one bit before a decoded NUL. -/
def s14 : State :=
  { State.reset with
    sync.integ := -10, sync.sphase := 62440, sync.lock := true, sync.bitcnt := 7 }

/-- A full window of zeros between two decision steps, after `n` samples. -/
def full (n : Idx) (sub : BitVec 1) : State :=
  { State.reset with corr.fill := 42, corr.nsamp := n, sync.subsamp := sub }

/-! ### Well-formedness: each check refuses an ill-formed term (R67, R111) -/

theorem test_wf_submitDIdle_null : wellFormed (.submitDIdle 0 7) = false := by decide
theorem test_wf_submitDHs_null : wellFormed (.submitDHs 0 7) = false := by decide
theorem test_wf_submitDMsg_null : wellFormed (.submitDMsg 0 7) = false := by decide
theorem test_wf_submitDEom_null : wellFormed (.submitDEom 0 7) = false := by decide
theorem test_wf_accepts : wellFormed (.submitDIdle 0x5A 7) = true ∧ wellFormed (.sample 0x8000) = true := by
  decide

/-! ### Decoding: words written out from R61, R62, R63, R67, R73 -/

theorem test_decode_nop : decodeTableWord 24 0b0000000000000000000 = some .nop := by decide
theorem test_decode_nop_ignores_data : decodeTableWord 24 0b0001010101010101010 = some .nop := by decide
theorem test_decode_sample :
    decodeTableWord 24 0b0011111101100101110 = some (.sample (BitVec.ofInt 16 (-1234))) := by decide
theorem test_decode_flush : decodeTableWord 24 0b0100000000000000000 = some .flush := by decide
theorem test_decode_clear : decodeTableWord 24 0b0110000000000000000 = some .clear := by decide
theorem test_decode_ack : decodeTableWord 24 0b1000000000000000011 = some (.ack 3) := by decide
theorem test_decode_ack_ignores_high_data :
    decodeTableWord 24 0b1001111111111110101 = some (.ack 5) := by decide
theorem test_decode_reserved5 : decodeTableWord 24 0b1010000000000000000 = some .reserved5 := by decide
theorem test_decode_reserved6 : decodeTableWord 24 0b1100000000000000000 = some .reserved6 := by decide
theorem test_decode_reserved7 : decodeTableWord 24 0b1111111111111111111 = some .reserved7 := by decide
theorem test_decode_no_twentieth_bit : decodeTableWord 24 0b10000000000000000000 = none := by decide
theorem test_decode_submit_idle :
    decode (.frameByte .idle 0b01011010 100) = .submitDIdle 0x5A 100
      ∧ decode (.frameByte .idle 0b00000000 7) = .submitNIdle 7 := by decide
theorem test_decode_submit_hs :
    decode (.frameByte .headerSearch 0b01000011 400) = .submitDHs 0x43 400
      ∧ decode (.frameByte .headerSearch 0b00000000 300) = .submitNHs 300 := by decide
theorem test_decode_submit_msg :
    decode (.frameByte .readingMessage 0b00101101 500) = .submitDMsg 0x2D 500
      ∧ decode (.frameByte .readingMessage 0b00000000 9) = .submitNMsg 9 := by decide
theorem test_decode_submit_eom :
    decode (.frameByte .readingEom 0b01001110 950) = .submitDEom 0x4E 950
      ∧ decode (.frameByte .readingEom 0b00000000 1234) = .submitNEom 1234 := by decide
theorem test_decode_frame_byte_word : decodeTableWord 8 0b01011010 = some (.submitDIdle 0x5A 0) := by
  decide
/-- The internal operations have no word (R72). -/
theorem test_no_word_for_internal :
    decodeTableWord 0 0 = none ∧ ∀ i ∈ [Instr.table, .corr .markI, .corr .markQ, .corr .spaceI,
      .corr .spaceQ, .disc, .dcd, .integ, .dlladj, .phadv, .bitdec, .prelock, .bytecnt, .classifyPass,
      .classifyFail], encode i = none := by decide
theorem test_encode_sample : encode (.sample (BitVec.ofInt 16 (-1234))) = some (.cmd 0x1FB2E) := by decide

/-- `sint16` at the ends of its range (R63). -/
theorem test_sint16 : sint16 0xFB2E = -1234 ∧ sint16 0x7FFF = 32767 ∧ sint16 0x8000 = -32768 := by decide

/-- The edges of `ALLOWED` (R66). -/
theorem test_allowed_edges :
    [0x00, 0x08, 0x09, 0x0B, 0x0D, 0x0E, 0x1F, 0x20, 0x7E, 0x7F, 0xAB].map allowed =
      [false, false, true, true, true, false, false, true, true, false, false] := by decide

/-! ### Fetching -/

theorem test_withFetchWord_runs_reserved :
    (got State.reset (step (State.reset.withFetchWord 24 0x50000))).iface.cmderr = true := by decide
theorem test_withFetchWord_runs_byte :
    (got State.reset (step (State.reset.withFetchWord 8 0x5A))).frame.phase = .headerSearch := by decide

/-! ### Host commands -/

/-- P5 rows 2 to 43: the 42nd zero sample fires with `idx` = 0. -/
theorem test_sample_first_window :
    let t := after (.cmd 0x10000 5) { State.reset with corr.fill := 41, corr.nsamp := 41 }
    (t.corr.fill, t.corr.nsamp, t.corr.curIdx, t.sync.sphase, t.sync.subsamp) = (42, 42, 0, 3096, 0) := by
  decide

/-- P5 row 50: no step; the sample is the newest cell, and the read port sign-extends it. -/
theorem test_sample_minus_one :
    let t := after (.cmd 0x1FFFF 9) (full 44 0)
    (t.corr.nsamp, t.sync.subsamp, memRead t.corr.win 41, readPort t 0x629) =
      (45, 1, 0xFFFF, 0xFFFFFFFFFFFFFFFF) := by decide

/-- P6: `FLUSH @9` closes the message. -/
theorem test_flush_closes_message :
    let t := after (.cmd 0x20000 9) reading
    (memCells t.outs.lastMsg 10, t.outs.lastMsgLen, t.outs.headerEnd, t.outs.tsHeader, t.frame.phase) =
      ([0x5A, 0x43, 0x5A, 0x43, 0x2D, 0x41, 0x42, 0x43, 0x2D, 0], 9, 5000, 9, .idle) := by decide

/-- R133: the reset state from any state. -/
theorem test_clear : after (.cmd 0x30000 0) s9 = State.reset := by decide

/-- R134: `evflags` = 0b0011, `ACK 0x1` gives 0b0010. -/
theorem test_ack : (ran (.ack 1) { State.reset with iface.evflags := 0b0011 }).iface.evflags = 0b0010 := by
  decide

/-- P5 row 47 and its `STATUS` (R135, R31). -/
theorem test_reserved : readPort (after (.cmd 0x50000 6) (full 44 0)) 0x000 = 0x100 := by decide
theorem test_reserved6 : (ran .reserved6 s8).iface.cmderr = true := by decide
theorem test_reserved7 : (ran .reserved7 s8).sync = s8.sync := by decide

/-- R130. -/
theorem test_nop : ran .nop s9 = s9 := by decide

/-! ### Correlator (K1 and the laws of R85) -/

theorem test_corr_of_silence :
    (ran (.corr .spaceQ) { State.reset with wires.sq := 5 }).wires.sq = 0 := by decide
theorem test_disc_of_silence : (ran .disc { State.reset with wires.sg := .mark }).wires.sg = .neither := by
  decide

/-! ### Bit Synchronizer -/

/-- S2, S3. -/
theorem test_dcd :
    (ran .dcd { State.reset with sync.dcdShreg := 1, wires.sg := .space }).sync.dcdShreg = 2
      ∧ (ran .dcd { State.reset with sync.dcdShreg := 3, wires.sg := .neither }).sync.dcdShreg = 2 := by
  decide

/-- S4 to S7. -/
theorem test_integ :
    [(10, ToneSign.mark), (10, .space), (-10, .space), (-3, .neither)].map
        (fun p => (ran .integ { State.reset with sync.integ := p.1, wires.sg := p.2 }).sync.integ) =
      [10, 9, -10, -3] := by decide

/-- The table of `DLLADJ` in 95_test_vectors.md section 3.1. -/
theorem test_dlladj_table :
    [20000, 5000, 1549, 1548, 0, 32380, 32381, 40000, 49152, 49153, 62000, 63987, 63988, 65535].map nudged =
      [11808, 2500, 775, 1548, 0, 24188, 40573, 48192, 57344, 57344, 63768, 64761, 63988, 65535] := by
  decide
theorem test_dlladj_no_transition :
    (ran .dlladj { State.reset with sync.dcdShreg := 3, sync.sphase := 20000 }).sync.sphase = 20000
      ∧ (ran .dlladj { State.reset with sync.dcdShreg := 2, sync.sphase := 20000 }).sync.sphase = 11808 := by
  decide

/-- `PHADV` alone, 95_test_vectors.md section 3.1. -/
theorem test_phadv_table :
    [11808, 63768, 62439, 62440, 65535, 0].map (fun p => (advanced p, wraps p)) =
      [(14904, false), (1328, true), (65535, false), (0, true), (3095, true), (3096, false)] := by decide

/-- `BITDEC` alone, 95_test_vectors.md section 3.1. -/
theorem test_bitdec_table :
    [(0x56, 4), (0xAB, -1), (0x00, 0), (0xFF, -10)].map
        (fun p => (ran .bitdec { State.reset with sync.lasts := p.1, sync.integ := p.2 }).sync.lasts) =
      [0xAB, 0x55, 0x80, 0x7F] := by decide

/-- S8: a preamble match while locked re-aligns. -/
theorem test_prelock_match :
    let t := after (.tone .mark 5000 7) s8
    (t.sync.sphase, t.sync.integ, t.sync.lasts, t.sync.bitcnt, t.sync.lock, t.corr.curIdx, t.frame.phase) =
      (560, 5, 0xAB, 0, true, 5000, .idle) := by decide

/-- S9: not in `ReadingMessage`; the byte is a framing failure that ends the message. -/
theorem test_prelock_suppressed :
    let t := after (.tone .mark 5000 7) s9
    (t.sync.lock, t.outs.lastMsgLen, t.outs.headerEnd, t.outs.tsHeader, t.port.evOut, t.port.conds) =
      (false, 8, 5000, 7, 2, [.framingFailure]) := by decide

/-- S10: the eighth bit completes the byte `Z`. -/
theorem test_bytecnt_completes :
    let t := after (.tone .space 6000 7) s10
    (t.sync.bitcnt, t.sync.lasts, t.frame.phase, memRead t.frame.head 0, t.frame.headlen) =
      (0, 0x5A, .headerSearch, 0x5A, 1) := by decide

/-- S11: not locked, nothing is counted. -/
theorem test_bytecnt_unlocked :
    let t := after (.tone .space 6000 7) { s10 with sync.lock := false, sync.bitcnt := 0 }
    (t.sync.bitcnt, t.sync.lasts, t.frame.phase) = (0, 0x5A, .idle) := by decide

/-- R98: a hyphen is passed on. -/
theorem test_classifyPass :
    (ran .classifyPass { reading with sync.lasts := 0x2D }).frame.msglen = 8 := by decide

/-- S14: a decoded NUL is a framing failure. -/
theorem test_classifyFail :
    let t := after (.tone .space 6000 7) s14
    (t.sync.lock, t.sync.bitcnt, t.sync.sphase, t.frame.phase, t.port.conds) =
      (false, 0, 0, .idle, [.framingFailure]) := by decide

/-! ### Frame Decoder -/

/-- R111: `submit('Z', 100)` in `Idle`. -/
theorem test_submitDIdle :
    (after (.byte 0x5A 100 7) State.reset).frame = ⟨.headerSearch, [(0, 0x5A)], 1, [], 0⟩ := by decide

/-- R112, R113: `submit('C', 400)` on `ZCZ`. -/
theorem test_submitDHs_header :
    let t := after (.byte 0x43 400 7) (searching 0x5A 0x43 0x5A)
    (t.frame.phase, t.outs.headerStart, t.outs.inAlert, t.iface.evflags) =
      (.readingMessage, 400, true, 1) := by decide

/-- F5 and F4: `ZCZX` is a negative match, `NNNN` an end of message. -/
theorem test_submitDHs_other :
    (after (.byte 0x58 400 7) (searching 0x5A 0x43 0x5A)).port.conds = [.negativeMatch]
      ∧ (after (.byte 0x4E 900 7) (searching 0x4E 0x4E 0x4E)).outs.eomStart = 900 := by decide

/-- R114: stored below 268, dropped at 268. -/
theorem test_submitDMsg :
    (ran (.submitDMsg 0x2D 500) { reading with frame.msg := [], frame.msglen := 0 }).frame.msg = [(0, 0x2D)]
      ∧ (ran (.submitDMsg 0x41 500) saturated).port.conds = [.messageSaturated] := by decide

/-- R115. -/
theorem test_submitDEom : ran (.submitDEom 0x4E 950) inEom = inEom := by decide

/-- F3. -/
theorem test_submitNIdle : after (.byte 0 100 0) State.reset = State.reset := by decide

/-- F8. -/
theorem test_submitNHs : (after (.byte 0 300 7) (searching 0x5A 0x43 0x5A)).frame = State.reset.frame := by
  decide

/-- F10: no text; F11: no hyphen. -/
theorem test_submitNMsg :
    (ran (.submitNMsg 500) { reading with frame.msg := [], frame.msglen := 0 }).outs.lastMsgLen = 4
      ∧ (ran (.submitNMsg 800)
          { reading with frame.msg := [(0, 0x41), (1, 0x42), (2, 0x43)], frame.msglen := 3 }).outs.lastMsgLen
        = 7 := by decide

/-- R119: `submit(0, 1234)` at `time_in` = 77. -/
theorem test_submitNEom :
    let t := after (.byte 0 1234 77) inEom
    (t.outs.eomEnd, t.outs.tsEom, t.outs.inAlert, t.frame.phase, t.iface.evflags) =
      (1234, 77, false, .idle, 8) := by decide

/-! ### Assembler (R73) -/

theorem test_assemble_keeps_time :
    assemble [⟨.nop, none⟩, ⟨.flush, some 777⟩, ⟨.ack 3, none⟩] =
      [.cmd 0x00000 0, .cmd 0x20000 777, .cmd 0x40003 777] := by decide

/-- The burst of vector P4 has 6774 samples, and the bits start where section 5.1 says. -/
theorem test_afsk_shape :
    afskLength 20 = 6774 ∧ [0, 42, 43, 84, 85, 127, 128].map afskBitIndex = [0, 0, 1, 1, 2, 2, 3] := by decide

/-! ### Witnesses: a state and operands that meet the hypotheses of each statement that has some. The name
after `witness_` is the statement's; `_2`, `_3` are further clauses or the other end of a range. -/

theorem witness_DecodeOfEncodeGivesInstr :
    wellFormed (.sample 0x8000) = true ∧ isInternal (.sample 0x8000) = false
      ∧ wellFormed (.submitDHs 0xFF 7) = true ∧ isInternal (.submitDHs 0xFF 7) = false := by decide

/-- `reading` with a full window and one input to come: a state that has the invariants. -/
def ready (i : Input) : State :=
  { reading with corr.fill := 42, corr.nsamp := 5042, port.inputs := [i] }

theorem witness_StepRunsTheDecodedCommand :
    (ready (.cmd 0x20000 9)).port.inputs = .cmd 0x20000 9 :: [] := rfl
theorem witness_StepRunsTheSelectedSubmitCase :
    (ready (.byte 0x5A 100 7)).port.inputs = .byte 0x5A 100 7 :: [] := rfl
theorem witness_StepOnToneRunsTheSyncOperations :
    (ready (.tone .mark 5000 7)).port.inputs = .tone .mark 5000 7 :: [] := rfl
theorem witness_StepWithoutInputHoldsState : reading.port.inputs = [] := rfl
theorem witness_FetchWordIsRunFirst :
    decodeTableWord 24 0x50000 = some .reserved5 ∧ decodeTableWord 8 0x5A = some (.submitDIdle 0x5A 0) := by
  decide
theorem witness_ResetEdgeResetsEveryRegister : (ready .rst).port.inputs = .rst :: [] := rfl
theorem witness_ReservedCommandsSetCmderr :
    Instr.reserved7 ∈ [Instr.reserved5, .reserved6, .reserved7] := by decide
theorem witness_SampleWithoutDecisionStep :
    Memory.wf 42 State.reset.corr.win ∧ ({ State.reset with corr.fill := 40 } : State).corr.fill.val < 41 := by
  decide
theorem witness_SampleWithoutDecisionStep_2 :
    Memory.wf 42 (full 44 0).corr.win ∧ (full 44 0).corr.fill.val = 42 ∧ (full 44 0).sync.subsamp = 0#1 := by
  decide
theorem witness_SampleWithDecisionStep :
    Memory.wf 42 State.reset.corr.win ∧ ({ State.reset with corr.fill := 41 } : State).corr.fill.val = 41 := by
  decide
theorem witness_SampleWithDecisionStep_2 :
    Memory.wf 42 (full 43 1).corr.win ∧ (full 43 1).corr.fill.val = 42 ∧ (full 43 1).sync.subsamp = 1#1 := by
  decide

/-- Vector K11: a window whose newest cell alone is not 0. -/
def click (s : State) : State := { s with corr.win := [(41, 1000)] }

theorem witness_CorrWritesItsOwnResultOnly :
    click s8 ≠ click s9
      ∧ ∀ a, a < 42 → memRead (click s8).corr.win a = memRead (click s9).corr.win a := by decide
theorem witness_CorrWritesItsOwnResultOnly_2 : ∀ a, a < 42 → memRead s9.corr.win a = 0#16 := by decide
theorem witness_DiscObeysTheTwoLawsOfNumerics :
    click s8 ≠ click s9
      ∧ ∀ a, a < 42 → memRead (click s8).corr.win a = memRead (click s9).corr.win a := by decide
theorem witness_DiscObeysTheTwoLawsOfNumerics_2 : ∀ a, a < 42 → memRead s9.corr.win a = 0#16 := by decide
theorem witness_ReferenceDecisionIgnoresScale : (0 : ℝ) < 2 := two_pos
theorem witness_ReferenceSingleSampleBalances : 0 < 42 ∧ 41 < 42 := by decide
theorem witness_PrelockMatchesOrCounts :
    ({ s8 with sync.lasts := 0xAB } : State).sync.lasts = 0xAB#8
      ∧ ({ s8 with sync.lasts := 0xAB } : State).frame.phase ≠ .readingMessage := by decide
theorem witness_PrelockMatchesOrCounts_2 :
    s8.sync.lasts ≠ 0xAB#8 ∧ ({ s9 with sync.lasts := 0xAB } : State).frame.phase = .readingMessage := by
  decide
theorem witness_BytecntCountsToEight : State.reset.sync.lock = false := by decide
theorem witness_BytecntCountsToEight_2 :
    ({ s10 with sync.bitcnt := 0 } : State).sync.lock = true
      ∧ ({ s10 with sync.bitcnt := 0 } : State).sync.bitcnt.toNat < 7
      ∧ ({ s10 with sync.bitcnt := 6 } : State).sync.bitcnt.toNat < 7 := by decide
theorem witness_BytecntCountsToEight_3 : s10.sync.lock = true ∧ s10.sync.bitcnt.toNat = 7 := by decide
theorem witness_ClassifyPassSubmitsAllowedBytes :
    allowed ({ reading with sync.lasts := 0x7E } : State).sync.lasts = true
      ∧ allowed ({ reading with sync.lasts := 0x7F } : State).sync.lasts = false := by decide
theorem witness_ClassifyFailDropsLockAndSubmitsNull :
    allowed ({ reading with sync.lasts := 0x08 } : State).sync.lasts = false
      ∧ allowed ({ reading with sync.lasts := 0x09 } : State).sync.lasts = true := by decide
theorem witness_SubmitLeavesSyncAndCorr :
    ∃ t, exec (decode (.frameByte .readingMessage 0x41 7)) reading = .next t := ⟨_, rfl⟩
theorem witness_FirstDataByteOpensTheHeaderWindow :
    Memory.wf 4 State.reset.frame.head ∧ State.reset.frame.headlen.val = 0 := by decide
theorem witness_HeaderByteIsStored :
    let s := { searching 0x5A 0x43 0 with frame.head := [(0, 0x5A), (1, 0x43)], frame.headlen := 2 }
    Memory.wf 4 s.frame.head ∧ s.frame.headlen.val < 3 := by decide
theorem witness_FourthHeaderByteIsCompared :
    Memory.wf 4 (searching 0x5A 0x43 0x5A).frame.head ∧ (searching 0x5A 0x43 0x5A).frame.headlen.val = 3 := by
  decide
theorem witness_MessageByteIsStoredOrDropped :
    let s := { saturated with frame.msglen := 267 }
    Memory.wf 268 s.frame.msg ∧ s.frame.msglen.val < 268 := by decide
theorem witness_MessageByteIsStoredOrDropped_2 : saturated.frame.msglen.val = 268 := by decide

/-- No hyphen, at the shortest text: `n` = 0. -/
theorem witness_NullInReadingMessageCompletesIt :
    let s := { reading with frame.msg := [], frame.msglen := 0 }
    0 = s.frame.msglen.val ∧ ∀ i, i < s.frame.msglen.val → memRead s.frame.msg i ≠ 0x2D#8 := by decide
/-- The last hyphen is byte 4 of `-ABC-xy`: `n` = 5. -/
theorem witness_NullInReadingMessageCompletesIt_2 :
    1 ≤ 5 ∧ 5 ≤ reading.frame.msglen.val ∧ memRead reading.frame.msg (5 - 1) = 0x2D#8
      ∧ ∀ i, 5 ≤ i → i < reading.frame.msglen.val → memRead reading.frame.msg i ≠ 0x2D#8 := by
  refine ⟨by decide, by decide, by decide, fun i h1 h2 => ?_⟩
  exact (by decide : ∀ i, i < 7 → 5 ≤ i → memRead reading.frame.msg i ≠ 0x2D#8) i h2 h1
theorem witness_PhaseTransitionTable :
    HeadlenInSearch (searching 0x5A 0x43 0x5A) ∧ Memory.wf 4 (searching 0x5A 0x43 0x5A).frame.head := by
  decide
theorem witness_PhaseTransitionTable_2 : HeadlenInSearch reading ∧ Memory.wf 4 reading.frame.head := by
  decide
/-- The text `-A-x`: the last hyphen stands after `-A`. -/
theorem witness_HeaderMessageIsDecodedWhole :
    let body : List (Byte × Idx) := [(0x2D, 500), (0x41, 600)]
    let tail : List (Byte × Idx) := [(0x78, 800)]
    State.reset.frame.phase = .idle ∧ State.reset.frame.headlen.val = 0 ∧ Memory.wf 4 State.reset.frame.head
      ∧ (∀ c ∈ body ++ tail, c.1 ≠ 0#8) ∧ (∀ c ∈ tail, c.1 ≠ 0x2D#8)
      ∧ body.length + 1 + tail.length ≤ 268 := by
  refine ⟨rfl, rfl, by decide, ?_, ?_, by decide⟩ <;> simp
theorem witness_EndOfMessageIsDecodedWhole :
    State.reset.frame.phase = .idle ∧ State.reset.frame.headlen.val = 0 ∧ Memory.wf 4 State.reset.frame.head
      ∧ ∀ c ∈ [((0x4E, 500) : Byte × Idx)], c.1 ≠ 0#8 := by
  refine ⟨rfl, rfl, by decide, ?_⟩
  simp
/-- The addresses next to each listed range are in no range (R30). -/
theorem witness_ReadPortRegisterMap :
    ∀ a ∈ [0x013, 0x0FF, 0x104, 0x1FF, 0x30C, 0x3FF, 0x510, 0x5FF, 0x62A, (0xFFF : BitVec 12)],
      0x012 < a.toNat ∧ ¬ (0x100 ≤ a.toNat ∧ a.toNat < 0x104) ∧ ¬ (0x200 ≤ a.toNat ∧ a.toNat < 0x200 + 268)
        ∧ ¬ (0x400 ≤ a.toNat ∧ a.toNat < 0x400 + 272) ∧ ¬ (0x600 ≤ a.toNat ∧ a.toNat < 0x600 + 42) := by
  simp
theorem witness_EveryStepKeepsTheInvariants :
    BlockInv (ready (.cmd 0x20000 9)) ∧ ∃ t, step (ready (.cmd 0x20000 9)) = .next t :=
  ⟨by decide, _, rfl⟩
theorem witness_OnlyAllowedBytesAreEverStored :
    TextAllowed (ready (.cmd 0x20000 9)) ∧ ∃ t, step (ready (.cmd 0x20000 9)) = .next t :=
  ⟨by decide, _, rfl⟩

/-- A stored 0x00 is no allowed text: byte 1 of a two-byte message. -/
theorem test_textAllowed_refuses_zero :
    ¬ TextAllowed { reading with frame.msg := [(0, 0x2D)], frame.msglen := 2 } := by decide

/-- Vector S9 with its input: a condition and an event in one step. -/
def s9Given : State := { s9 with port.inputs := [.tone .mark 5000 7] }

theorem witness_AtMostOneEventPerStep :
    (∃ t, step s9Given = .next t) ∧ (got s9 (step s9Given)).port.conds ≠ []
      ∧ (got s9 (step s9Given)).port.evOut ≠ 0#4 := ⟨⟨_, rfl⟩, by decide, by decide⟩
theorem witness_EventFlagsAreSticky : ∃ t, step s9Given = .next t := ⟨_, rfl⟩
theorem witness_LockFallsOnlyByFramingFailure :
    (∃ t, step s9Given = .next t) ∧ s9Given.sync.lock = true
      ∧ (got s9 (step s9Given)).sync.lock = false := ⟨⟨_, rfl⟩, by decide, by decide⟩
theorem witness_OutputsChangeOnlyWithTheirEvent :
    (∃ t, step (ready (.cmd 0x20000 9)) = .next t)
      ∧ (∀ rest, (ready (.cmd 0x20000 9)).port.inputs ≠ .rst :: rest)
      ∧ ∀ w τ rest, (ready (.cmd 0x20000 9)).port.inputs = .cmd w τ :: rest → decode (.cmd w) ≠ .clear := by
  refine ⟨⟨_, rfl⟩, fun rest h => ?_, fun w τ rest h => ?_⟩
  · cases h
  · cases h
    decide
theorem witness_NsampCountsSamples : ∃ t, step (ready (.cmd 0x10000 9)) = .next t := ⟨_, rfl⟩

end Sys2Proof.Tests
end

/-! The scope of the block (spec/00_scope.md): its parameters, what a command performs, and what the
Frame Decoder may write. -/

namespace Sys2Proof.Machine

/-! ### The next state of an operation -/

/-- Where an operation answers a next state, that state is its effect. -/
theorem eq_effect_of_exec_eq_next {i : Instr} {s t : State} (h : exec i s = .next t) : t = effect i s := by
  rw [exec_eq_effect] at h
  exact (Host.Outcome.next.inj h).symm

/-! ### A step on a command -/

/-- A command is performed in the state that accepts it (R136). -/
theorem step_cmd {s : State} {w : CmdWord} {t : Time} {rest : List Input}
    (h : s.port.inputs = .cmd w t :: rest) : step s = exec (decode (.cmd w)) (accepted t rest s) := by
  rw [step, h]

/-- Acceptance changes the pins and the observers only (R136, logs 1, 2, 8). -/
theorem accepted_eq (t : Time) (rest : List Input) (s : State) :
    accepted t rest s =
      { s with port.timeIn := t, port.inputs := rest, port.evOut := 0#4, port.conds := [] } := rfl

/-! ### What a selected `submit` case leaves alone

The phase that selects the case need not be the phase of the state it runs in, so `submit_frame` does
not apply: the eight cases are gone through by the selecting phase. -/

/-- What the null byte does in the case a phase selects (R116 to R119). -/
theorem effect_decodeSubmit_null (p : Phase) (idx : Idx) (s : State) :
    effect (decodeSubmit p 0#8 idx) s = match p with
      | .idle => s
      | .headerSearch => abortHeader s
      | .readingMessage => completeMessage idx s
      | .readingEom => completeEom idx s := by
  cases p <;> rfl

/-- What a data byte does in the case a phase selects (R111 to R115). -/
theorem effect_decodeSubmit_data {b : Byte} (hb : b ≠ 0#8) (p : Phase) (idx : Idx) (s : State) :
    effect (decodeSubmit p b idx) s = match p with
      | .idle => headerByte b idx (setPhase .headerSearch s)
      | .headerSearch => headerByte b idx s
      | .readingMessage => messageByte b s
      | .readingEom => s := by
  unfold decodeSubmit
  rw [if_neg hb]
  cases p <;> rfl

/-- Every `submit` case leaves everything outside the Frame Decoder, its outputs and the event flags
alone (R5). -/
theorem effect_decodeSubmit_frame (p : Phase) (b : Byte) (idx : Idx) (s : State) :
    (effect (decodeSubmit p b idx) s).corr = s.corr
      ∧ (effect (decodeSubmit p b idx) s).sync = s.sync
      ∧ (effect (decodeSubmit p b idx) s).wires = s.wires
      ∧ (effect (decodeSubmit p b idx) s).iface.cmderr = s.iface.cmderr
      ∧ (effect (decodeSubmit p b idx) s).port.timeIn = s.port.timeIn
      ∧ (effect (decodeSubmit p b idx) s).port.inputs = s.port.inputs := by
  by_cases hb : b = 0#8
  · rw [hb, effect_decodeSubmit_null]
    cases p <;> exact ⟨rfl, rfl, rfl, rfl, rfl, rfl⟩
  · rw [effect_decodeSubmit_data hb]
    cases p with
    | idle => exact headerByte_frame b idx (setPhase .headerSearch s)
    | headerSearch => exact headerByte_frame b idx s
    | readingMessage =>
      obtain ⟨hcorr, hsync, hwires, hiface, -, -, htime, hinputs⟩ := messageByte_frame b s
      exact ⟨hcorr, hsync, hwires, congrArg Iface.cmderr hiface, htime, hinputs⟩
    | readingEom => exact ⟨rfl, rfl, rfl, rfl, rfl, rfl⟩

/-! ### The statements of spec/00_scope.md -/

/-- Settles O38: the next state is the effect of the selected case, whose frame is
`effect_decodeSubmit_frame`. -/
theorem submitLeavesSyncAndCorr : Obligations.SubmitLeavesSyncAndCorr := by
  intro p b idx s t h
  obtain rfl : t = effect (decodeSubmit p b idx) s := eq_effect_of_exec_eq_next h
  exact effect_decodeSubmit_frame p b idx s

/-- Settles O4: each formula is closed arithmetic, evaluated in the kernel. -/
theorem parametersFollowTheirFormulas : Obligations.ParametersFollowTheirFormulas :=
  ⟨rfl, rfl, rfl, rfl, rfl, rfl⟩

/-- Settles O6: `step_cmd`, with the accepting state written out. -/
theorem stepRunsTheDecodedCommand : Obligations.StepRunsTheDecodedCommand := by
  intro s w t rest h
  rw [step_cmd h, accepted_eq]

end Sys2Proof.Machine

/-! The state of the block (spec/10_state.md): what the read port shows of it, what every step keeps of
it, and which register changes with which event. -/

namespace Sys2Proof.Machine

/-! ### What one decision step can do

A decision step moves the loop registers and then does one of five things. Every fact below about a
`SAMPLE` that completes a window is read off these two inversions. -/

/-- Where the loop of a decision step and its decided bit take `s` (R90 to R95): no register but
`dcd_shreg`, `integ`, `sphase` and `lasts` changes, and `integ` stays in its range. -/
def LoopMoved (s u : State) : Prop :=
  ∃ d n q l r, u = { s with
      sync.dcdShreg := d, sync.integ := n, sync.sphase := q, sync.lasts := l, wires.wrapped := r }
    ∧ (-10 ≤ s.sync.integ.toInt → s.sync.integ.toInt ≤ 10 → -10 ≤ n.toInt ∧ n.toInt ≤ 10)

/-- What a decision step makes of the state `u` its loop left (R96 to R99). -/
inductive DecisionOutcome (u : State) : State → Prop where
  /-- Nothing more: no bit was decided, or the block is not locked (R97). -/
  | held : DecisionOutcome u u
  /-- The preamble matched (R96). -/
  | aligned : DecisionOutcome u { u with sync.lock := true, sync.bitcnt := 0#3 }
  /-- A bit was counted (R97). -/
  | counted (hlock : u.sync.lock = true) :
      DecisionOutcome u { u with sync.bitcnt := u.sync.bitcnt + 1#3 }
  /-- The eighth bit completed an allowed byte (R98). -/
  | passed (hlock : u.sync.lock = true) :
      DecisionOutcome u { submit u.sync.lasts u.corr.curIdx u with sync.bitcnt := 0#3 }
  /-- The eighth bit completed a byte that is not allowed (R99). -/
  | failed :
      DecisionOutcome u { submit 0#8 u.corr.curIdx
          { u with sync.lock := false, port.conds := u.port.conds ++ [.framingFailure] } with
        sync.bitcnt := 0#3 }

theorem bytecnt_outcome (u : State) : DecisionOutcome u (bytecnt u) := by
  rcases bytecnt_cases u with ⟨-, h⟩ | ⟨hlock, -, h⟩ | ⟨hlock, -, -, h⟩ | ⟨-, -, -, h⟩ <;> rw [h]
  · exact .held
  · exact .counted hlock
  · exact .passed hlock
  · exact .failed

theorem prelock_outcome (u : State) : DecisionOutcome u (prelock u) := by
  rcases prelock_cases u with ⟨-, -, h⟩ | ⟨-, h⟩ <;> rw [h]
  · exact .aligned
  · exact bytecnt_outcome u

/-- A decision step after `DISC` is the loop and one of the five outcomes (R90). -/
theorem stepFromTone_outcome (s : State) :
    ∃ u, LoopMoved s u ∧ DecisionOutcome u (stepFromTone s) := by
  obtain ⟨d, n, q, r, hn, h | ⟨l, h⟩⟩ := stepFromTone_cases s <;> rw [h]
  · exact ⟨_, ⟨d, n, q, s.sync.lasts, r, rfl, hn⟩, .held⟩
  · exact ⟨_, ⟨d, n, q, l, r, rfl, hn⟩, prelock_outcome _⟩

/-- No outcome of a decision step writes a correlator register, `subsamp` or the stream of inputs. -/
theorem DecisionOutcome.frame {u t : State} (h : DecisionOutcome u t) :
    t.corr = u.corr ∧ t.sync.subsamp = u.sync.subsamp ∧ t.port.inputs = u.port.inputs := by
  cases h <;> simp

/-- A decision step after `DISC` writes no correlator register, `subsamp` or the stream of inputs. -/
theorem stepFromTone_frame (s : State) :
    (stepFromTone s).corr = s.corr ∧ (stepFromTone s).sync.subsamp = s.sync.subsamp
      ∧ (stepFromTone s).port.inputs = s.port.inputs := by
  obtain ⟨u, ⟨d, n, q, l, r, rfl, -⟩, hout⟩ := stepFromTone_outcome s
  exact hout.frame

@[simp] theorem stepFromTone_corr (s : State) : (stepFromTone s).corr = s.corr :=
  (stepFromTone_frame s).1
@[simp] theorem stepFromTone_subsamp (s : State) :
    (stepFromTone s).sync.subsamp = s.sync.subsamp := (stepFromTone_frame s).2.1
@[simp] theorem stepFromTone_inputs (s : State) :
    (stepFromTone s).port.inputs = s.port.inputs := (stepFromTone_frame s).2.2

/-- The internal operations of R90 run one after the other are a decision step after `DISC`. -/
theorem runOps_stepFromTone (s : State) : ∃ u v,
    Safety.runOps [.dcd, .integ, .dlladj, .phadv] s = .next u
      ∧ Safety.runOps (if u.wires.wrapped then [.bitdec, .prelock] else []) u = .next v
      ∧ stepFromTone s = v := by
  refine ⟨phadv (dlladj (integ (dcd s))), stepFromTone s, rfl, ?_, rfl⟩
  unfold stepFromTone
  generalize phadv (dlladj (integ (dcd s))) = u
  cases hw : u.wires.wrapped <;> simp [hw, Safety.runOps, exec, execBitdec, execPrelock]

/-! ### What one step can do -/

/-- Everything a step can do, input by input (R9, R136, R152, R160). -/
theorem step_cases {s t : State} (h : step s = .next t) :
    (s.port.inputs = [] ∧ t = quiet s)
      ∨ (∃ rest, s.port.inputs = .rst :: rest ∧ t = hardReset rest s)
      ∨ (∃ w τ rest, s.port.inputs = .cmd w τ :: rest ∧ t = effect (decodeCmd w) (accepted τ rest s))
      ∨ (∃ sg idx τ rest, s.port.inputs = .tone sg idx τ :: rest
          ∧ t = toneStep sg idx (accepted τ rest s))
      ∨ ∃ b idx τ rest, s.port.inputs = .byte b idx τ :: rest
          ∧ t = submit b idx (accepted τ rest s) := by
  rw [step_eq, Host.Outcome.next.injEq] at h
  cases hin : s.port.inputs with
  | nil => rw [hin] at h; exact .inl ⟨rfl, h.symm⟩
  | cons i rest =>
    rw [hin] at h
    cases i with
    | rst => exact .inr (.inl ⟨rest, rfl, h.symm⟩)
    | cmd w τ => exact .inr (.inr (.inl ⟨w, τ, rest, rfl, h.symm⟩))
    | tone sg idx τ => exact .inr (.inr (.inr (.inl ⟨sg, idx, τ, rest, rfl, h.symm⟩)))
    | byte b idx τ => exact .inr (.inr (.inr (.inr ⟨b, idx, τ, rest, rfl, h.symm⟩)))

/-- What a command does (R62, R130 to R135): it takes a sample in, submits the null byte, resets, or
changes nothing but the interface registers and the observed conditions. -/
theorem effect_decodeCmd_cases (w : CmdWord) (a : State) :
    (∃ x, decodeCmd w = .sample x ∧ effect (decodeCmd w) a = sample x a)
      ∨ effect (decodeCmd w) a = submit 0#8 a.corr.curIdx a
      ∨ (decodeCmd w = .clear ∧ effect (decodeCmd w) a = resetRegisters a)
      ∨ ∃ f c, effect (decodeCmd w) a = { a with iface := f, port.conds := c } := by
  rcases decodeCmd_cases w with h | ⟨x, h⟩ | h | h | ⟨m, h⟩ | h | h | h <;> rw [h]
  · exact .inr (.inr (.inr ⟨a.iface, a.port.conds, rfl⟩))
  · exact .inl ⟨x, rfl, rfl⟩
  · exact .inr (.inl rfl)
  · exact .inr (.inr (.inl ⟨rfl, rfl⟩))
  · exact .inr (.inr (.inr ⟨_, a.port.conds, rfl⟩))
  · exact .inr (.inr (.inr ⟨_, _, rfl⟩))
  · exact .inr (.inr (.inr ⟨_, _, rfl⟩))
  · exact .inr (.inr (.inr ⟨_, _, rfl⟩))

end Sys2Proof.Machine

/-! ### The invariants, unit by unit

`BlockInv` is regrouped by the units of R5, so that an operation that leaves a unit alone keeps that
unit's part by a frame lemma. -/

namespace Sys2Proof.Safety

open Sys2Proof.Machine

/-- The delay line (R11): canonical, and 0 in the cells that hold no accepted sample. -/
structure CorrOk (c : Corr) : Prop where
  wf : Memory.wf Config.corrLen c.win
  unused : ∀ e ∈ c.win, Config.corrLen ≤ e.1 + c.fill.val

/-- The synchronizer (R15, R97): `integ` in its range, no bit counted while not locked. -/
structure SyncOk (y : Sync) : Prop where
  lower : -10 ≤ y.integ.toInt
  upper : y.integ.toInt ≤ 10
  unlocked : y.lock = false → y.bitcnt = 0#3

/-- The two buffers of the frame decoder (R21, R22): canonical, and 0 above their length counters. -/
structure BuffersOk (f : Frame) : Prop where
  headWf : Memory.wf Config.headLen f.head
  msgWf : Memory.wf Config.msgCap f.msg
  headUnused : ∀ e ∈ f.head, e.1 < f.headlen.val
  msgUnused : ∀ e ∈ f.msg, e.1 < f.msglen.val

/-- The frame decoder (R28 (c), (d)): its buffers, and which of them a phase may fill. -/
structure FrameOk (f : Frame) : Prop where
  buffers : BuffersOk f
  searching : 0 < f.headlen.val ↔ f.phase = .headerSearch
  headlen_le : f.headlen.val ≤ 3
  reading : 0 < f.msglen.val → f.phase = .readingMessage

/-- The last message (R25): canonical, and 0 above its length. -/
structure OutsOk (o : Outs) : Prop where
  wf : Memory.wf Config.lastMsgCap o.lastMsg
  unused : ∀ e ∈ o.lastMsg, e.1 < o.lastMsgLen.val

/-- The part of the invariant that a decision step or a submitted byte puts at stake. -/
structure DecoderInv (s : State) : Prop where
  sync : SyncOk s.sync
  frame : FrameOk s.frame
  outs : OutsOk s.outs
  locked : LockedUnlessIdle s

/-- The invariant is its units' parts and what ties them to the sample stream. -/
theorem blockInv_iff (s : State) :
    BlockInv s ↔ CorrOk s.corr ∧ DecoderInv s ∧ WarmingUp s ∧ StreamPosition s ∧ OnlyPortInputs s := by
  constructor
  · rintro ⟨⟨hwin, hhead, hmsg, hlast⟩, ⟨uhead, umsg, ulast, uwin⟩, hlocked, ⟨hsearch, hle⟩, hread,
      ⟨hlow, hup⟩, hcount, hwarm, hpos, hin⟩
    exact ⟨⟨hwin, uwin⟩, ⟨⟨hlow, hup, hcount⟩, ⟨⟨hhead, hmsg, uhead, umsg⟩, hsearch, hle, hread⟩,
      ⟨hlast, ulast⟩, hlocked⟩, hwarm, hpos, hin⟩
  · rintro ⟨hcorr, hdec, hwarm, hpos, hin⟩
    have hbuf := hdec.frame.buffers
    exact ⟨⟨hcorr.wf, hbuf.headWf, hbuf.msgWf, hdec.outs.wf⟩,
      ⟨hbuf.headUnused, hbuf.msgUnused, hdec.outs.unused, hcorr.unused⟩, hdec.locked,
      ⟨hdec.frame.searching, hdec.frame.headlen_le⟩, hdec.frame.reading,
      ⟨hdec.sync.lower, hdec.sync.upper⟩, hdec.sync.unlocked, hwarm, hpos, hin⟩

/-- Settles O52: a closed fact about the reset state. -/
theorem invariantsHoldAtReset : Obligations.InvariantsHoldAtReset := by
  unfold Obligations.InvariantsHoldAtReset
  decide

/-- The registers take part in the invariant; of the pins, only the stream of inputs does. -/
theorem blockInv_congr {s t : State} (hs : BlockInv s) (hcorr : t.corr = s.corr)
    (hsync : t.sync = s.sync) (hframe : t.frame = s.frame) (houts : t.outs = s.outs)
    (hin : OnlyPortInputs t) : BlockInv t := by
  obtain ⟨hmem, hunused, hlocked, hsearch, hread, hrange, hcount, hwarm, hpos, -⟩ := hs
  refine ⟨?_, ?_, ?_, ?_, ?_, ?_, ?_, ?_, ?_, hin⟩ <;>
    simpa only [MemoriesCanonical, UnusedCellsZero, LockedUnlessIdle, HeadlenInSearch, MsglenInMessage,
      IntegInRange, UnlockedCountsNothing, WarmingUp, StreamPosition, hcorr, hsync, hframe, houts]

/-! ### The frame decoder keeps its part -/

/-- A byte added at the length counter leaves a buffer 0 above the counter. -/
theorem memWrite_unused {n : Nat} {m : Memory 8} (h : ∀ e ∈ m, e.1 < n) (b : Byte) :
    ∀ e ∈ memWrite m n b, e.1 < n + 1 := by
  intro e he
  rcases mem_memWrite he with he | ⟨rfl, -⟩
  · exact Nat.lt_succ_of_lt (h e he)
  · exact Nat.lt_succ_self n

/-- The cleared buffers in a phase other than `HeaderSearch` (R110). -/
theorem frameOk_cleared {p : Phase} (hp : p ≠ .headerSearch) :
    FrameOk { State.reset.frame with phase := p } :=
  ⟨⟨Memory.wf_nil _, Memory.wf_nil _, fun _ h => (nomatch h), fun _ h => (nomatch h)⟩,
    ⟨fun h => absurd h (Nat.lt_irrefl 0), fun h => absurd h hp⟩, Nat.zero_le 3,
    fun h => absurd h (Nat.lt_irrefl 0)⟩

/-- The header comparison clears the buffers and leaves `HeaderSearch` (R113). -/
theorem compareHeader_frameOk (idx : Idx) (s : State) : FrameOk (compareHeader idx s).frame := by
  rcases compareHeader_cases idx s with ⟨-, h⟩ | ⟨-, h⟩ | ⟨-, -, h⟩ <;> rw [h] <;>
    exact frameOk_cleared (by decide)

/-- A byte for the header window: the window grows to at most three bytes, or is compared and cleared
(R112, R113). -/
theorem headerByte_frameOk {s : State} (hbuf : BuffersOk s.frame) (hphase : s.frame.phase = .headerSearch)
    (hle : s.frame.headlen.val ≤ 3) (hmsg : s.frame.msglen.val = 0) (b : Byte) (idx : Idx) :
    FrameOk (headerByte b idx s).frame := by
  by_cases h3 : s.frame.headlen.val = 3
  · rw [headerByte_compare h3]
    exact compareHeader_frameOk idx _
  · have hlt : s.frame.headlen.val < 3 := by omega
    have hlen : (s.frame.headlen + 1).val = s.frame.headlen.val + 1 :=
      Fin.val_add_one_of_lt (Fin.lt_def.mpr (by simp only [Fin.val_last]; omega))
    rw [headerByte_store hlt]
    exact
      { buffers :=
          { headWf := memWrite_wf hbuf.headWf (by simp only [Config.headLen]; omega) b
            msgWf := hbuf.msgWf
            headUnused := by simpa only [hlen] using memWrite_unused hbuf.headUnused b
            msgUnused := hbuf.msgUnused }
        searching := ⟨fun _ => hphase, fun _ => by simp only [hlen]; omega⟩
        headlen_le := by simp only [hlen]; omega
        reading := fun h => absurd h (by simp only [hmsg]; omega) }

/-- A message byte is stored below the cap or dropped (R114). -/
theorem messageByte_frameOk {s : State} (h : FrameOk s.frame) (hphase : s.frame.phase = .readingMessage)
    (b : Byte) : FrameOk (messageByte b s).frame := by
  unfold messageByte
  split
  next hlt =>
    have hlen : (s.frame.msglen + 1).val = s.frame.msglen.val + 1 :=
      Fin.val_add_one_of_lt (Fin.lt_def.mpr hlt)
    exact
      { buffers :=
          { headWf := h.buffers.headWf
            msgWf := memWrite_wf h.buffers.msgWf hlt b
            headUnused := h.buffers.headUnused
            msgUnused := by simpa only [hlen] using memWrite_unused h.buffers.msgUnused b }
        searching := h.searching
        headlen_le := h.headlen_le
        reading := fun _ => hphase }
  next => exact h

/-- A composed message fills `LASTMSG` up to its length (R118). -/
theorem outsOk_composed (s : State) (o : Outs) :
    OutsOk { o with
      lastMsg := memFill [] 0 (composedMessage s)
      lastMsgLen := Fin.ofNat 273 (composedMessage s).length } where
  wf := memFill_wf (Memory.wf_nil _) (by rw [Nat.zero_add]; exact composedMessage_length_le s)
  unused := by
    intro e he
    rcases mem_memFill he with he | ⟨-, hlt, -, -⟩
    · cases he
    · rw [composedMessage_len_val]
      omega

/-- The header search leaves the last message alone (R5). -/
theorem headerByte_outsOk {s : State} (h : OutsOk s.outs) (b : Byte) (idx : Idx) :
    OutsOk (headerByte b idx s).outs := by
  unfold headerByte compareHeader appendHead
  split_ifs <;> exact ⟨h.wf, h.unused⟩

/-- Every submitted byte keeps the frame decoder's part of the invariant (R111 to R119). -/
theorem submit_keeps {s : State} (hf : FrameOk s.frame) (ho : OutsOk s.outs) (b : Byte) (idx : Idx) :
    FrameOk (submit b idx s).frame ∧ OutsOk (submit b idx s).outs := by
  by_cases hb : b = 0#8
  · subst hb
    have hcleared : FrameOk State.reset.frame := frameOk_cleared (p := .idle) (by decide)
    rw [submit_null]
    cases s.frame.phase with
    | idle => exact ⟨hf, ho⟩
    | headerSearch => exact ⟨hcleared, ho⟩
    | readingMessage =>
      exact ⟨hcleared, outsOk_composed s { s.outs with headerEnd := idx, tsHeader := s.port.timeIn }⟩
    | readingEom => exact ⟨hcleared, ho.wf, ho.unused⟩
  · have hmsg : s.frame.phase ≠ .readingMessage → s.frame.msglen.val = 0 := fun hne =>
      Nat.eq_zero_of_not_pos (mt hf.reading hne)
    rw [submit_data hb]
    cases hp : s.frame.phase with
    | idle =>
      exact ⟨headerByte_frameOk (s := setPhase .headerSearch s)
          ⟨hf.buffers.headWf, hf.buffers.msgWf, hf.buffers.headUnused, hf.buffers.msgUnused⟩ rfl
          hf.headlen_le (hmsg (by simp [hp])) b idx,
        headerByte_outsOk (s := setPhase .headerSearch s) ho b idx⟩
    | headerSearch =>
      exact ⟨headerByte_frameOk hf.buffers hp hf.headlen_le (hmsg (by simp [hp])) b idx,
        headerByte_outsOk ho b idx⟩
    | readingMessage =>
      obtain ⟨-, -, -, -, houts, -⟩ := messageByte_frame b s
      exact ⟨messageByte_frameOk hf hp b, houts ▸ ho⟩
    | readingEom => exact ⟨hf, ho⟩

/-- The null byte leads to `Idle` from every phase (R116 to R119). -/
theorem submit_null_phase (idx : Idx) (s : State) : (submit 0#8 idx s).frame.phase = .idle := by
  rw [submit_null]
  cases hp : s.frame.phase with
  | idle => exact hp
  | headerSearch => rfl
  | readingMessage => rfl
  | readingEom => rfl

/-- The null byte needs no lock, since it leads to `Idle` (R28 (b)). -/
theorem submit_null_keeps {s : State} (hy : SyncOk s.sync) (hf : FrameOk s.frame) (ho : OutsOk s.outs)
    (idx : Idx) : DecoderInv (submit 0#8 idx s) :=
  { sync := by rw [submit_sync]; exact hy
    frame := (submit_keeps hf ho 0#8 idx).1
    outs := (submit_keeps hf ho 0#8 idx).2
    locked := fun hne => absurd (submit_null_phase idx s) hne }

/-! ### A decision step keeps its part -/

/-- The loop registers take part by the range of `integ` alone. -/
theorem loopMoved_keeps {s u : State} (hm : LoopMoved s u) (h : DecoderInv s) : DecoderInv u := by
  obtain ⟨d, n, q, l, r, rfl, hn⟩ := hm
  obtain ⟨hlow, hup⟩ := hn h.sync.lower h.sync.upper
  exact ⟨⟨hlow, hup, h.sync.unlocked⟩, h.frame, h.outs, h.locked⟩

/-- Each outcome of a decision step keeps the invariant: where `lock` falls, the null byte leads to
`Idle` (R28 (b), R99). -/
theorem decisionOutcome_keeps {u t : State} (ht : DecisionOutcome u t) (h : DecoderInv u) :
    DecoderInv t := by
  obtain ⟨⟨hlow, hup, hcount⟩, hf, ho, hlocked⟩ := h
  cases ht with
  | held => exact ⟨⟨hlow, hup, hcount⟩, hf, ho, hlocked⟩
  | aligned => exact ⟨⟨hlow, hup, fun _ => rfl⟩, hf, ho, fun _ => rfl⟩
  | counted hlock =>
    exact ⟨⟨hlow, hup, fun hne => nomatch hlock.symm.trans hne⟩, hf, ho, hlocked⟩
  | passed hlock =>
    obtain ⟨hf', ho'⟩ := submit_keeps hf ho u.sync.lasts u.corr.curIdx
    refine ⟨⟨?_, ?_, fun _ => rfl⟩, hf', ho', fun _ => ?_⟩ <;> simpa only [submit_sync]
  | failed =>
    obtain ⟨hf', ho'⟩ := submit_keeps
      (s := { u with sync.lock := false, port.conds := u.port.conds ++ [.framingFailure] })
      hf ho 0#8 u.corr.curIdx
    refine ⟨⟨?_, ?_, fun _ => rfl⟩, hf', ho', fun hne => absurd (submit_null_phase _ _) hne⟩ <;>
      simpa only [submit_sync]

theorem stepFromTone_keeps {s : State} (h : DecoderInv s) : DecoderInv (stepFromTone s) := by
  obtain ⟨u, hm, hout⟩ := stepFromTone_outcome s
  exact decisionOutcome_keeps hout (loopMoved_keeps hm h)

end Sys2Proof.Safety

/-! ### A step keeps the invariants -/

namespace Sys2Proof.Safety

open Sys2Proof.Machine

/-- The shifted window lists a cell only where the sample that entered it does: the zeros of the cells
not filled yet move down with it (R11, R131). -/
theorem corrOk_shift {c c' : Corr} {x : Sample} (h : CorrOk c) (hwf : Memory.wf Config.corrLen c'.win)
    (hread : ∀ a, memRead c'.win a =
      if a = 41 then x else if a < 41 then memRead c.win (a + 1) else memRead c.win a)
    (hfill : c'.fill.val = min (c.fill.val + 1) 42) : CorrOk c' where
  wf := hwf
  unused := by
    intro e he
    obtain ⟨hlt, hne⟩ := hwf.2 e he
    rw [← memRead_of_mem hwf he, hread] at hne
    simp only [Config.corrLen] at hlt ⊢
    by_cases h41 : e.1 = 41
    · omega
    · rw [if_neg h41, if_pos (by omega)] at hne
      have hold := h.unused _ (mem_of_memRead_ne hne)
      simp only [Config.corrLen] at hold
      omega

/-- Where a window is complete, the stream index of its oldest sample is even: 0 for the first window,
two more than the last one after it (R12). -/
theorem curIdx_even {s : State} (hpos : StreamPosition s)
    (h : s.corr.fill.val = 41 ∨ (s.corr.fill.val = 42 ∧ s.sync.subsamp = 1#1)) :
    (s.corr.nsamp + 1#64 - 42#64).toNat % 2 = 0 := by
  obtain ⟨hwarm, hfull, heven⟩ := hpos
  rcases h with h | ⟨h, hsub⟩
  · rw [hwarm (by simp only [Config.corrLen]; omega), h]
    rfl
  · have hn : s.corr.nsamp + 1#64 - 42#64 = s.corr.curIdx + 2#64 := by
      rw [hfull h, hsub]
      simp only [Config.corrLen]
      bv_omega
    simp only [Config.subsamp] at heven
    rw [hn]
    bv_omega

/-- A `SAMPLE` below the first full window (R28 (h), R131). -/
theorem sample_warm_keeps {s : State} (hs : BlockInv s) (hfill : s.corr.fill.val < 41) {c' : Corr}
    (hc : CorrOk c') (hfill' : c'.fill.val = s.corr.fill.val + 1)
    (hn : c'.nsamp = s.corr.nsamp + 1#64) (hcur : c'.curIdx = s.corr.curIdx) :
    BlockInv { s with corr := c' } := by
  obtain ⟨-, hdec, hwarm, ⟨hcount, -, heven⟩, hin⟩ := (blockInv_iff s).mp hs
  obtain ⟨hcur0, hsync, hframe⟩ := hwarm (by simp only [Config.corrLen]; omega)
  refine (blockInv_iff _).mpr ⟨hc, ⟨hdec.sync, hdec.frame, hdec.outs, hdec.locked⟩,
    fun _ => ⟨hcur.trans hcur0, hsync, hframe⟩, ⟨fun _ => ?_, fun h => ?_, ?_⟩, hin⟩
  · simp only [hn, hfill', hcount (by simp only [Config.corrLen]; omega), BitVec.ofNat_add]
  · simp only [hfill', Config.corrLen] at h
    omega
  · simpa only [hcur] using heven

/-- A `SAMPLE` between two decision steps (R131). -/
theorem sample_between_keeps {s : State} (hs : BlockInv s) (hfill : s.corr.fill.val = 42)
    (hsub : s.sync.subsamp = 0#1) {c' : Corr} (hc : CorrOk c') (hfill' : c'.fill = s.corr.fill)
    (hn : c'.nsamp = s.corr.nsamp + 1#64) (hcur : c'.curIdx = s.corr.curIdx) :
    BlockInv { s with corr := c', sync.subsamp := 1#1 } := by
  obtain ⟨-, hdec, -, ⟨-, hfull, heven⟩, hin⟩ := (blockInv_iff s).mp hs
  have hnot : ¬ c'.fill.val < Config.corrLen := by simp only [hfill', hfill]; decide
  refine (blockInv_iff _).mpr ⟨hc,
    ⟨⟨hdec.sync.lower, hdec.sync.upper, hdec.sync.unlocked⟩, hdec.frame, hdec.outs, hdec.locked⟩,
    fun h => absurd h hnot, ⟨fun h => absurd h hnot, fun _ => ?_, ?_⟩, hin⟩
  · simp only [hn, hcur, hfull hfill, hsub, Config.corrLen]
    bv_omega
  · simpa only [hcur] using heven

/-- A `SAMPLE` that completes a window: it is taken in and the decision step follows (R90, R131). -/
theorem sample_fires_keeps {s : State} (hs : BlockInv s)
    (hfires : s.corr.fill.val = 41 ∨ (s.corr.fill.val = 42 ∧ s.sync.subsamp = 1#1)) {c' : Corr}
    (hc : CorrOk c') (hfill' : c'.fill = 42) (hn : c'.nsamp = s.corr.nsamp + 1#64)
    (hcur : c'.curIdx = s.corr.nsamp + 1#64 - 42#64) {u : State}
    (hu : u = { s with corr := c', sync.subsamp := 0#1 }) : BlockInv (stepFromTone (disc u)) := by
  obtain ⟨-, hdec, -, hpos, hin⟩ := (blockInv_iff s).mp hs
  have heven := curIdx_even hpos hfires
  have hnot : ¬ c'.fill.val < Config.corrLen := by rw [hfill']; decide
  subst hu
  have hdec' : DecoderInv (disc { s with corr := c', sync.subsamp := 0#1 }) :=
    ⟨⟨hdec.sync.lower, hdec.sync.upper, hdec.sync.unlocked⟩, hdec.frame, hdec.outs, hdec.locked⟩
  refine (blockInv_iff _).mpr ⟨?_, stepFromTone_keeps hdec', ?_, ⟨?_, fun _ => ?_, ?_⟩, ?_⟩ <;>
    simp only [WarmingUp, OnlyPortInputs, stepFromTone_corr, stepFromTone_subsamp, stepFromTone_inputs,
      disc_corr, disc_sync, disc_port]
  · exact hc
  · exact fun h => absurd h hnot
  · exact fun h => absurd h hnot
  · simp only [hn, hcur, Config.corrLen]
    bv_omega
  · rw [hcur]
    exact heven
  · exact hin

theorem sample_keeps {s : State} (hs : BlockInv s) (x : Sample) : BlockInv (sample x s) := by
  obtain ⟨hc, -⟩ := (blockInv_iff s).mp hs
  obtain ⟨win', hwin, h⟩ := sample_spec x s
  obtain ⟨hwf, hread⟩ := hwin hc.wf
  rcases h with ⟨hfill, h⟩ | ⟨hfill, hsub, h⟩ | ⟨hfires, h⟩ <;> rw [h]
  · have hfill' : (s.corr.fill + 1).val = s.corr.fill.val + 1 :=
      Fin.val_add_one_of_lt (Fin.lt_def.mpr (by simp only [Fin.val_last]; omega))
    exact sample_warm_keeps hs hfill
      (corrOk_shift hc hwf hread (by simp only [hfill']; omega)) hfill' rfl rfl
  · exact sample_between_keeps hs hfill hsub
      (corrOk_shift hc hwf hread (by simp only [hfill]; omega)) rfl rfl rfl
  · refine sample_fires_keeps hs hfires (corrOk_shift hc hwf hread ?_) rfl rfl rfl rfl
    rcases hfires with h | ⟨h, -⟩ <;> rw [h] <;> rfl

/-- `FLUSH` (R132): before the first full window the phase is `Idle`, where the null byte changes
nothing (R116). -/
theorem flush_keeps {s : State} (hs : BlockInv s) : BlockInv (flush s) := by
  obtain ⟨hc, hdec, hwarm, hpos, hin⟩ := (blockInv_iff s).mp hs
  refine (blockInv_iff _).mpr ⟨?_, submit_null_keeps hdec.sync hdec.frame hdec.outs _, ?_, ?_, ?_⟩
  · simpa only [flush, submit_corr]
  · intro hfill
    simp only [flush, submit_corr, submit_sync] at hfill ⊢
    obtain ⟨hcur, hsync, hframe⟩ := hwarm hfill
    refine ⟨hcur, hsync, ?_⟩
    rw [submit_null, hframe]
    exact hframe
  · simpa only [StreamPosition, flush, submit_corr, submit_sync]
  · simpa only [OnlyPortInputs, flush, submit_inputs]

/-- The reset registers have the invariants, whatever inputs are still to come (R33, R160, R161). -/
theorem resetRegisters_keeps {s : State} (hin : OnlyPortInputs s) : BlockInv (resetRegisters s) :=
  blockInv_congr invariantsHoldAtReset rfl rfl rfl rfl hin

/-- Every command keeps the invariants. -/
theorem command_keeps {s : State} (hs : BlockInv s) (w : CmdWord) : BlockInv (effect (decodeCmd w) s) := by
  have hin : OnlyPortInputs s := ((blockInv_iff s).mp hs).2.2.2.2
  rcases effect_decodeCmd_cases w s with ⟨x, -, h⟩ | h | ⟨-, h⟩ | ⟨f, c, h⟩ <;> rw [h]
  · exact sample_keeps hs x
  · exact flush_keeps hs
  · exact resetRegisters_keeps hin
  · exact blockInv_congr hs rfl rfl rfl rfl hin

/-- Settles O53: by the input the step performs. A unit-level input is none of the port's. -/
theorem everyStepKeepsTheInvariants : Obligations.EveryStepKeepsTheInvariants := by
  intro s t hs hstep
  obtain ⟨-, -, -, -, hin⟩ := (blockInv_iff s).mp hs
  have hrest : ∀ {i rest}, s.port.inputs = i :: rest →
      isPortInput i = true ∧ ∀ j ∈ rest, isPortInput j = true := by
    intro i rest h
    rw [OnlyPortInputs, h, List.forall_mem_cons] at hin
    exact hin
  rcases step_cases hstep with ⟨-, rfl⟩ | ⟨rest, h, rfl⟩ | ⟨w, τ, rest, h, rfl⟩
    | ⟨sg, idx, τ, rest, h, -⟩ | ⟨b, idx, τ, rest, h, -⟩
  · exact blockInv_congr hs rfl rfl rfl rfl hin
  · exact resetRegisters_keeps (hrest h).2
  · exact command_keeps (blockInv_congr (t := accepted τ rest s) hs rfl rfl rfl rfl (hrest h).2) w
  · exact nomatch (hrest h).1
  · exact nomatch (hrest h).1

end Sys2Proof.Safety

/-! ### Registers that change with their event only -/

namespace Sys2Proof.Machine

/-! #### `lock` -/

/-- The null byte signals nothing (R116 to R119). -/
theorem submit_null_conds (idx : Idx) (s : State) :
    (submit 0#8 idx s).port.conds = s.port.conds := by
  rw [submit_null]
  cases s.frame.phase <;> rfl

/-- A decision step that loses the lock signals `FramingFailure` (R99, R141). -/
theorem stepFromTone_lock {s : State} (hs : s.sync.lock = true)
    (ht : (stepFromTone s).sync.lock = false) : .framingFailure ∈ (stepFromTone s).port.conds := by
  obtain ⟨u, ⟨d, n, q, l, r, rfl, -⟩, hout⟩ := stepFromTone_outcome s
  generalize stepFromTone s = t at ht hout
  cases hout with
  | held => exact nomatch hs.symm.trans ht
  | aligned => exact nomatch ht
  | counted => exact nomatch hs.symm.trans ht
  | passed =>
    simp only [submit_sync] at ht
    exact nomatch hs.symm.trans ht
  | failed => simp [submit_null_conds]

/-- A `SAMPLE` that loses the lock signals `FramingFailure` (R99, R131, R141). -/
theorem sample_lock {x : Sample} {s : State} (hs : s.sync.lock = true)
    (ht : (sample x s).sync.lock = false) : .framingFailure ∈ (sample x s).port.conds := by
  obtain ⟨win', -, ⟨-, h⟩ | ⟨-, -, h⟩ | ⟨-, h⟩⟩ := sample_spec x s <;> rw [h] at ht ⊢
  · exact nomatch hs.symm.trans ht
  · exact nomatch hs.symm.trans ht
  · exact stepFromTone_lock hs ht

/-- Settles O57: by the input the step performs. Outside a reset only a decision step writes `lock`. -/
theorem lockFallsOnlyByFramingFailure : Obligations.LockFallsOnlyByFramingFailure := by
  intro s t hstep hs ht
  rcases step_cases hstep with ⟨-, h⟩ | ⟨rest, hin, -⟩ | ⟨w, τ, rest, hin, h⟩
    | ⟨sg, idx, τ, rest, -, h⟩ | ⟨b, idx, τ, rest, -, h⟩
  · rw [h] at ht
    exact nomatch hs.symm.trans ht
  · exact .inr (.inl ⟨rest, hin⟩)
  · subst h
    rcases effect_decodeCmd_cases w (accepted τ rest s) with ⟨x, -, h⟩ | h | ⟨hclear, -⟩ | ⟨f, c, h⟩
    · rw [h] at ht ⊢
      exact .inl (sample_lock hs ht)
    · rw [h, submit_sync] at ht
      exact nomatch hs.symm.trans ht
    · exact .inr (.inr ⟨w, τ, rest, hin, hclear⟩)
    · rw [h] at ht
      exact nomatch hs.symm.trans ht
  · rw [h, toneStep] at ht ⊢
    exact .inl (stepFromTone_lock hs ht)
  · rw [h, submit_sync] at ht
    exact nomatch hs.symm.trans ht

/-! #### `nsamp` -/

/-- `SAMPLE` counts itself (R131). -/
theorem sample_nsamp (x : Sample) (s : State) : (sample x s).corr.nsamp = s.corr.nsamp + 1#64 := by
  obtain ⟨win', -, ⟨-, h⟩ | ⟨-, -, h⟩ | ⟨-, h⟩⟩ := sample_spec x s <;> rw [h]
  rw [stepFromTone_corr, disc_corr]

/-- Settles O59: by the input the step performs, and a command by its operation. -/
theorem nsampCountsSamples : Obligations.NsampCountsSamples := by
  intro s t hstep
  rcases step_cases hstep with ⟨hin, h⟩ | ⟨rest, hin, h⟩ | ⟨w, τ, rest, hin, h⟩
    | ⟨sg, idx, τ, rest, hin, h⟩ | ⟨b, idx, τ, rest, hin, h⟩ <;> rw [hin, h]
  · rfl
  · rfl
  · rcases decodeCmd_cases w with hw | ⟨x, hw⟩ | hw | hw | ⟨m, hw⟩ | hw | hw | hw <;>
      simp only [decode, hw]
    case inr.inl => exact sample_nsamp x (accepted τ rest s)
    case inr.inr.inl => exact congrArg Corr.nsamp (submit_corr 0#8 _ (accepted τ rest s))
    all_goals rfl
  · rw [toneStep, stepFromTone_corr]
    rfl
  · exact congrArg Corr.nsamp (submit_corr b idx (accepted τ rest s))

/-! #### The outputs -/

/-- Each output changes only with its event (R23 to R26): what one transition may make of the outputs `o`
where it pulses `ev`. -/
structure OutputsFollow (o : Outs) (ev : BitVec 4) (o' : Outs) : Prop where
  hdrStart : ev ≠ 1#4 → o'.headerStart = o.headerStart
  hdrEnd : ev ≠ 2#4 → o'.headerEnd = o.headerEnd ∧ o'.tsHeader = o.tsHeader
    ∧ o'.lastMsg = o.lastMsg ∧ o'.lastMsgLen = o.lastMsgLen
  eomStart : ev ≠ 4#4 → o'.eomStart = o.eomStart
  eomEnd : ev ≠ 8#4 → o'.eomEnd = o.eomEnd ∧ o'.tsEom = o.tsEom
  inAlert : o'.inAlert = if ev = 1#4 then true else if ev = 8#4 then false else o.inAlert

/-- No pulse and no change. -/
theorem OutputsFollow.refl (o : Outs) : OutputsFollow o 0#4 o :=
  ⟨fun _ => rfl, fun _ => ⟨rfl, rfl, rfl, rfl⟩, fun _ => rfl, fun _ => ⟨rfl, rfl⟩, rfl⟩

theorem OutputsFollow.of_eq {o o' : Outs} {ev : BitVec 4} (hev : ev = 0#4) (ho : o' = o) :
    OutputsFollow o ev o' := by
  subst hev ho
  exact .refl o'

/-- The header comparison: `HDR_START`, `EOM_START` or neither (R113). -/
theorem compareHeader_outputs {s : State} (hev : s.port.evOut = 0#4) (idx : Idx) :
    OutputsFollow s.outs (compareHeader idx s).port.evOut (compareHeader idx s).outs := by
  rcases compareHeader_cases idx s with ⟨-, h⟩ | ⟨-, h⟩ | ⟨-, -, h⟩ <;> rw [h]
  · constructor <;> simp [hev]
  · constructor <;> simp [hev]
  · exact .of_eq hev rfl

/-- Storing a header byte writes no output (R112). -/
theorem appendHead_outs (b : Byte) (s : State) :
    (appendHead b s).outs = s.outs ∧ (appendHead b s).port = s.port := by
  unfold appendHead
  split <;> exact ⟨rfl, rfl⟩

/-- A header byte (R112, R113). -/
theorem headerByte_outputs {s : State} (hev : s.port.evOut = 0#4) (b : Byte) (idx : Idx) :
    OutputsFollow s.outs (headerByte b idx s).port.evOut (headerByte b idx s).outs := by
  obtain ⟨houts, hport⟩ := appendHead_outs b s
  unfold headerByte
  split
  · rw [← houts]
    exact compareHeader_outputs (by rw [hport, hev]) idx
  · exact .of_eq (by rw [hport, hev]) houts

/-- A message byte pulses nothing (R114). -/
theorem messageByte_evOut (b : Byte) (s : State) : (messageByte b s).port.evOut = s.port.evOut := by
  unfold messageByte
  split <;> rfl

/-- Every submitted byte (R111 to R119). -/
theorem submit_outputs {o : Outs} {s : State} (ho : s.outs = o) (hev : s.port.evOut = 0#4) (b : Byte)
    (idx : Idx) : OutputsFollow o (submit b idx s).port.evOut (submit b idx s).outs := by
  subst ho
  by_cases hb : b = 0#8
  · subst hb
    rw [submit_null]
    cases s.frame.phase with
    | idle => exact .of_eq hev rfl
    | headerSearch => exact .of_eq hev rfl
    | readingMessage => constructor <;> simp [hev]
    | readingEom => constructor <;> simp [hev]
  · rw [submit_data hb]
    cases s.frame.phase with
    | idle => exact headerByte_outputs (s := setPhase .headerSearch s) hev b idx
    | headerSearch => exact headerByte_outputs hev b idx
    | readingMessage =>
      obtain ⟨-, -, -, -, houts, -⟩ := messageByte_frame b s
      exact .of_eq ((messageByte_evOut b s).trans hev) houts
    | readingEom => exact .of_eq hev rfl

/-- A decision step (R96 to R99): the byte it may complete is the only source of events. -/
theorem decisionOutcome_outputs {o : Outs} {u t : State} (h : DecisionOutcome u t) (ho : u.outs = o)
    (hev : u.port.evOut = 0#4) : OutputsFollow o t.port.evOut t.outs := by
  cases h with
  | held => exact .of_eq hev ho
  | aligned => exact .of_eq hev ho
  | counted => exact .of_eq hev ho
  | passed => exact submit_outputs (s := u) ho hev u.sync.lasts u.corr.curIdx
  | failed =>
    exact submit_outputs
      (s := { u with sync.lock := false, port.conds := u.port.conds ++ [.framingFailure] })
      ho hev 0#8 u.corr.curIdx

theorem stepFromTone_outputs {o : Outs} {s : State} (ho : s.outs = o) (hev : s.port.evOut = 0#4) :
    OutputsFollow o (stepFromTone s).port.evOut (stepFromTone s).outs := by
  obtain ⟨u, ⟨d, n, q, l, r, rfl, -⟩, hout⟩ := stepFromTone_outcome s
  exact decisionOutcome_outputs hout ho hev

theorem sample_outputs {s : State} (hev : s.port.evOut = 0#4) (x : Sample) :
    OutputsFollow s.outs (sample x s).port.evOut (sample x s).outs := by
  obtain ⟨win', -, ⟨-, h⟩ | ⟨-, -, h⟩ | ⟨-, h⟩⟩ := sample_spec x s <;> rw [h]
  · exact .of_eq hev rfl
  · exact .of_eq hev rfl
  · exact stepFromTone_outputs rfl hev

/-- Every step that is no reset: acceptance ends the pulses of the step before (R60), and one command
submits at most one byte. -/
theorem step_outputs {s t : State} (hstep : step s = .next t)
    (hrst : ∀ rest, s.port.inputs ≠ .rst :: rest)
    (hclear : ∀ w τ rest, s.port.inputs = .cmd w τ :: rest → decode (.cmd w) ≠ .clear) :
    OutputsFollow s.outs t.port.evOut t.outs := by
  rcases step_cases hstep with ⟨-, h⟩ | ⟨rest, hin, -⟩ | ⟨w, τ, rest, hin, h⟩
    | ⟨sg, idx, τ, rest, -, h⟩ | ⟨b, idx, τ, rest, -, h⟩
  · rw [h]
    exact .of_eq rfl rfl
  · exact absurd hin (hrst rest)
  · rw [h]
    rcases effect_decodeCmd_cases w (accepted τ rest s) with ⟨x, -, he⟩ | he | ⟨hw, -⟩ | ⟨f, c, he⟩
    · rw [he]
      exact sample_outputs (s := accepted τ rest s) rfl x
    · rw [he]
      exact submit_outputs (s := accepted τ rest s) rfl rfl _ _
    · exact absurd hw (hclear w τ rest hin)
    · rw [he]
      exact .of_eq rfl rfl
  · rw [h, toneStep]
    exact stepFromTone_outputs rfl rfl
  · rw [h]
    exact submit_outputs (s := accepted τ rest s) rfl rfl b idx

/-- Settles O58: `step_outputs`, clause by clause. -/
theorem outputsChangeOnlyWithTheirEvent : Obligations.OutputsChangeOnlyWithTheirEvent := by
  intro s t hstep hrst hclear
  obtain ⟨hHdrStart, hHdrEnd, hEomStart, hEomEnd, hAlert⟩ := step_outputs hstep hrst hclear
  exact ⟨hHdrStart, hHdrEnd, hEomStart, hEomEnd, hAlert⟩

end Sys2Proof.Machine

/-! ### The host commands and the reset edge -/

namespace Sys2Proof.Machine

/-- Settles O19: the two cases of a `SAMPLE` that completes no window, with the window of
`shiftWin_spec`. -/
theorem sampleWithoutDecisionStep : Obligations.SampleWithoutDecisionStep := by
  intro x s hwf hfill
  obtain ⟨win', hshift, -, hread⟩ := shiftWin_spec hwf x
  rcases hfill with hlt | ⟨h42, hsub⟩
  · have hval : (s.corr.fill + 1).val = s.corr.fill.val + 1 :=
      Fin.val_add_one_of_lt (Fin.lt_def.mpr (by simp only [Fin.val_last]; omega))
    refine ⟨win', s.corr.fill + 1, ?_, by omega, hread⟩
    rw [exec_eq_effect, effect, sample_warm hlt, hshift, if_neg (by omega)]
  · refine ⟨win', s.corr.fill, ?_, by omega, hread⟩
    rw [exec_eq_effect, effect, sample_between h42 hsub, hshift, if_pos h42]

/-- Settles O20: `sample_fires`, the decision step read as the operations of R90 one by one. -/
theorem sampleWithDecisionStep : Obligations.SampleWithDecisionStep := by
  intro x s hwf hfires
  obtain ⟨win', hshift, -, hread⟩ := shiftWin_spec hwf x
  obtain ⟨u, v, hloop, hbit, hv⟩ := runOps_stepFromTone (disc { s with
    corr.win := win', corr.fill := 42, corr.nsamp := s.corr.nsamp + 1#64
    corr.curIdx := s.corr.nsamp + 1#64 - 42#64, sync.subsamp := 0#1 })
  refine ⟨win', u, v, hread, hloop, hbit, ?_⟩
  rw [exec_eq_effect, effect, sample_fires hfires, hshift, ← hv]
  rfl

/-- Settles O12: the reset edge is `resetRegisters`, field by field. -/
theorem resetEdgeResetsEveryRegister : Obligations.ResetEdgeResetsEveryRegister := by
  intro s rest hin
  refine ⟨hardReset rest s, ?_, rfl, rfl, rfl, rfl, rfl, rfl, rfl, rfl⟩
  rw [step, hin]

/-- Settles O21: the arm of `TABLE` answers the state it was given. -/
theorem tableLeavesTheState : Obligations.TableLeavesTheState := fun _ => rfl

/-! ### The read port -/

/-- The fields of a word laid out as `STATUS` is (R31). -/
theorem statusLayout_fields (lock alert err : Bool) (ph : BitVec 2) (ev : BitVec 4) :
    let v := 0#55 ++ BitVec.ofBool err ++ ev ++ BitVec.ofBool alert ++ ph ++ BitVec.ofBool lock
    v.getLsbD 0 = lock ∧ v.extractLsb' 1 2 = ph ∧ v.getLsbD 3 = alert ∧ v.extractLsb' 4 4 = ev
      ∧ v.getLsbD 8 = err ∧ v.extractLsb' 9 55 = 0#55 := by
  intro v
  refine ⟨?_, ?_, ?_, ?_, ?_, ?_⟩
  case refine_2 =>
    rw [BitVec.extractLsb'_append_eq_of_le (by decide), BitVec.extractLsb'_append_eq_right]
  case refine_4 =>
    repeat rw [BitVec.extractLsb'_append_eq_of_le (by decide)]
    exact BitVec.extractLsb'_append_eq_right
  case refine_6 =>
    repeat rw [BitVec.extractLsb'_append_eq_of_le (by decide)]
    exact BitVec.extractLsb'_zero
  all_goals
    simp only [v, BitVec.getLsbD_append, Nat.reduceLT, BitVec.getLsbD_ofBool]
    simp

/-- Address 0 is `STATUS` (R30). -/
theorem readPort_status (s : State) : readPort s 0x000#12 = statusWord s := rfl

/-- Settles O50: the layout of `STATUS`, and `phaseCode` as the two bits of the phase. -/
theorem statusFields : Obligations.StatusFields := by
  intro s
  rw [readPort_status]
  obtain ⟨hlock, hphase, halert, hev, herr, hzero⟩ := statusLayout_fields s.sync.lock s.outs.inAlert
    s.iface.cmderr (phaseCode s.frame.phase) s.iface.evflags
  refine ⟨hlock, hphase.trans ?_, halert, hev, herr, hzero⟩
  cases s.frame.phase <;> rfl

/-- Above the last register the address selects a memory space or nothing (R30). -/
theorem readPort_above (s : State) {a : BitVec 12} (h : 0x012 < a.toNat) : readPort s a =
    if 0x100 ≤ a.toNat ∧ a.toNat < 0x104 then (memRead s.frame.head (a.toNat - 0x100)).setWidth 64
    else if 0x200 ≤ a.toNat ∧ a.toNat < 0x200 + 268 then
      (memRead s.frame.msg (a.toNat - 0x200)).setWidth 64
    else if 0x400 ≤ a.toNat ∧ a.toNat < 0x400 + 272 then
      (memRead s.outs.lastMsg (a.toNat - 0x400)).setWidth 64
    else if 0x600 ≤ a.toNat ∧ a.toNat < 0x600 + 42 then
      (memRead s.corr.win (a.toNat - 0x600)).signExtend 64
    else 0#64 := by
  unfold readPort
  split
  case h_20 => rfl
  all_goals omega

/-- The address of cell `i` of a space that begins at `base` (R30). -/
theorem cellAddress_toNat {base size i : Nat} (hi : i < size) (h : base + size ≤ 4096) :
    (BitVec.ofNat 12 (base + i)).toNat = base + i := by
  rw [BitVec.toNat_ofNat]
  exact Nat.mod_eq_of_lt (by omega)

theorem readPort_head (s : State) {i : Nat} (hi : i < 4) :
    readPort s (BitVec.ofNat 12 (0x100 + i)) = (memRead s.frame.head i).setWidth 64 := by
  have ha := cellAddress_toNat (base := 0x100) hi (by decide)
  rw [readPort_above s (by omega), ha, if_pos (by omega), Nat.add_sub_cancel_left]

theorem readPort_msg (s : State) {i : Nat} (hi : i < 268) :
    readPort s (BitVec.ofNat 12 (0x200 + i)) = (memRead s.frame.msg i).setWidth 64 := by
  have ha := cellAddress_toNat (base := 0x200) hi (by decide)
  rw [readPort_above s (by omega), ha, if_neg (by omega), if_pos (by omega), Nat.add_sub_cancel_left]

theorem readPort_lastMsg (s : State) {i : Nat} (hi : i < 272) :
    readPort s (BitVec.ofNat 12 (0x400 + i)) = (memRead s.outs.lastMsg i).setWidth 64 := by
  have ha := cellAddress_toNat (base := 0x400) hi (by decide)
  rw [readPort_above s (by omega), ha, if_neg (by omega), if_neg (by omega), if_pos (by omega),
    Nat.add_sub_cancel_left]

theorem readPort_win (s : State) {i : Nat} (hi : i < 42) :
    readPort s (BitVec.ofNat 12 (0x600 + i)) = (memRead s.corr.win i).signExtend 64 := by
  have ha := cellAddress_toNat (base := 0x600) hi (by decide)
  rw [readPort_above s (by omega), ha, if_neg (by omega), if_neg (by omega), if_neg (by omega),
    if_pos (by omega), Nat.add_sub_cancel_left]

/-- A counter of fewer than 4096 values reads as itself (R30). -/
theorem toNat_ofNat_counter {n k : Nat} (h : k < n) (hn : n ≤ 4096) : (BitVec.ofNat 64 k).toNat = k := by
  rw [BitVec.toNat_ofNat]
  exact Nat.mod_eq_of_lt (by omega)

/-- Settles O51: the listed registers by their extension, the spaces cell by cell, and nothing at any
other address. -/
theorem readPortRegisterMap : Obligations.ReadPortRegisterMap := by
  intro s
  refine ⟨BitVec.toNat_setWidth_of_le (by decide), BitVec.toNat_setWidth_of_le (by decide),
    BitVec.toInt_signExtend_of_le (by decide), BitVec.toNat_setWidth_of_le (by decide),
    BitVec.toNat_setWidth_of_le (by decide), BitVec.toNat_setWidth_of_le (by decide),
    toNat_ofNat_counter s.frame.headlen.isLt (by decide),
    toNat_ofNat_counter s.frame.msglen.isLt (by decide), rfl, rfl, rfl, rfl, rfl, rfl, rfl, rfl,
    toNat_ofNat_counter s.outs.lastMsgLen.isLt (by decide),
    toNat_ofNat_counter s.corr.fill.isLt (by decide), ?_, ?_, ?_, ?_, ?_⟩
  · intro i hi
    rw [readPort_head s hi, BitVec.toNat_setWidth_of_le (by decide)]
  · intro i hi
    rw [readPort_msg s hi, BitVec.toNat_setWidth_of_le (by decide)]
  · intro i hi
    rw [readPort_lastMsg s hi, BitVec.toNat_setWidth_of_le (by decide)]
  · intro i hi
    rw [readPort_win s hi, BitVec.toInt_signExtend_of_le (by decide)]
  · intro a habove hhead hmsg hlast hwin
    rw [readPort_above s habove, if_neg hhead, if_neg hmsg, if_neg hlast, if_neg hwin]

/-- Settles O13: a register holds 0 and an empty space reads 0 at every cell. -/
theorem everyAddressReadsZeroAfterReset : Obligations.EveryAddressReadsZeroAfterReset := by
  intro a
  unfold readPort
  split
  case h_20 => split_ifs <;> rfl
  all_goals rfl

end Sys2Proof.Machine

/-! ### The wires (log 7)

The wires of the transition before reach no register: an operation that uses no wire commutes with
putting other wires in, and a decision step writes each wire before it reads it. -/

namespace Sys2Proof.Machine

/-- The state with other wires. -/
def withWires (w : Wires) (s : State) : State := { s with wires := w }

section
variable (w : Wires) (s : State)

@[simp] theorem withWires_corr : (withWires w s).corr = s.corr := rfl
@[simp] theorem withWires_sync : (withWires w s).sync = s.sync := rfl
@[simp] theorem withWires_frame : (withWires w s).frame = s.frame := rfl
@[simp] theorem withWires_wires : (withWires w s).wires = w := rfl
@[simp] theorem withWires_port : (withWires w s).port = s.port := rfl

/-! #### Operations that use no wire -/

theorem compareHeader_withWires (idx : Idx) :
    compareHeader idx (withWires w s) = withWires w (compareHeader idx s) := by
  have hhead : headBytes (withWires w s) = headBytes s := rfl
  unfold compareHeader
  rw [hhead]
  split_ifs <;> rfl

theorem appendHead_withWires (b : Byte) :
    appendHead b (withWires w s) = withWires w (appendHead b s) := by
  unfold appendHead
  rw [withWires_frame]
  split_ifs <;> rfl

theorem headerByte_withWires (b : Byte) (idx : Idx) :
    headerByte b idx (withWires w s) = withWires w (headerByte b idx s) := by
  unfold headerByte
  rw [appendHead_withWires, compareHeader_withWires, withWires_frame]
  split_ifs <;> rfl

theorem messageByte_withWires (b : Byte) :
    messageByte b (withWires w s) = withWires w (messageByte b s) := by
  unfold messageByte
  rw [withWires_frame]
  split_ifs <;> rfl

/-- No `submit` case reads or writes a wire (R5). -/
theorem submit_withWires (b : Byte) (idx : Idx) :
    submit b idx (withWires w s) = withWires w (submit b idx s) := by
  by_cases hb : b = 0#8
  · subst hb
    rw [submit_null, submit_null, withWires_frame]
    cases s.frame.phase <;> rfl
  · rw [submit_data hb, submit_data hb, withWires_frame]
    cases s.frame.phase with
    | idle => exact headerByte_withWires w (setPhase .headerSearch s) b idx
    | headerSearch => exact headerByte_withWires w s b idx
    | readingMessage => exact messageByte_withWires w s b
    | readingEom => rfl

theorem classifyPass_withWires : classifyPass (withWires w s) = withWires w (classifyPass s) := by
  unfold classifyPass
  rw [withWires_sync, withWires_corr, submit_withWires]
  split_ifs <;> rfl

theorem classifyFail_withWires : classifyFail (withWires w s) = withWires w (classifyFail s) := by
  have hsubmit := submit_withWires w { signal .framingFailure s with sync.lock := false } 0#8 s.corr.curIdx
  unfold classifyFail
  rw [withWires_sync]
  split_ifs
  · rfl
  · exact hsubmit

theorem classify_withWires : classify (withWires w s) = withWires w (classify s) := by
  unfold classify
  rw [classifyPass_withWires, classifyFail_withWires, withWires_sync]
  split_ifs <;> rfl

theorem bytecnt_withWires : bytecnt (withWires w s) = withWires w (bytecnt s) := by
  unfold bytecnt
  rw [classify_withWires, withWires_sync]
  split_ifs <;> rfl

theorem prelock_withWires : prelock (withWires w s) = withWires w (prelock s) := by
  unfold prelock
  rw [bytecnt_withWires, withWires_sync, withWires_frame]
  split_ifs <;> rfl

theorem dlladj_withWires : dlladj (withWires w s) = withWires w (dlladj s) := by
  have htransition : transition (withWires w s) = transition s := rfl
  unfold dlladj
  rw [htransition]
  split_ifs <;> rfl

end

/-! #### The decision step -/

variable {w : Wires} {s : State}

theorem dcd_withWires (hsg : w.sg = s.wires.sg) : dcd (withWires w s) = withWires w (dcd s) := by
  rw [dcd, withWires_wires, hsg]
  rfl

theorem integ_withWires (hsg : w.sg = s.wires.sg) : integ (withWires w s) = withWires w (integ s) := by
  unfold integ
  rw [withWires_wires, withWires_sync, hsg]
  cases s.wires.sg <;> dsimp only <;> split_ifs <;> rfl

/-- A decision step after `DISC` reads no wire of the transition before but the tone decision: the wire
`wrapped` is written by `PHADV` first (R90, R94). -/
theorem stepFromTone_withWires (hsg : w.sg = s.wires.sg) :
    ∃ w', stepFromTone (withWires w s) = withWires w' (stepFromTone s) := by
  have hloop : ∃ w', w'.wrapped = (phadv (dlladj (integ (dcd s)))).wires.wrapped ∧
      phadv (dlladj (integ (dcd (withWires w s)))) = withWires w' (phadv (dlladj (integ (dcd s)))) := by
    rw [dcd_withWires hsg, integ_withWires (s := dcd s) hsg, dlladj_withWires]
    exact ⟨{ w with wrapped := wraps (dlladj (integ (dcd s))).sync.sphase.toNat }, rfl, rfl⟩
  obtain ⟨w', hwrapped, hloop⟩ := hloop
  refine ⟨w', ?_⟩
  unfold stepFromTone
  rw [hloop]
  generalize phadv (dlladj (integ (dcd s))) = u at hwrapped
  dsimp only
  rw [withWires_wires, hwrapped]
  split_ifs
  · exact prelock_withWires w' (bitdec u)
  · rfl

/-- `DISC` writes the tone decision and the correlations from the window alone (R82, R83). -/
theorem disc_withWires (w : Wires) (s : State) :
    disc (withWires w s) = withWires { (disc s).wires with wrapped := w.wrapped } (disc s) := rfl

theorem decisionStep_withWires (w : Wires) (idx : Idx) (s : State) :
    ∃ w', decisionStep idx (withWires w s) = withWires w' (decisionStep idx s) :=
  stepFromTone_withWires (w := { (disc { s with corr.curIdx := idx }).wires with wrapped := w.wrapped })
    (s := disc { s with corr.curIdx := idx }) rfl

theorem toneStep_withWires (w : Wires) (sg : ToneSign) (idx : Idx) (s : State) :
    ∃ w', toneStep sg idx (withWires w s) = withWires w' (toneStep sg idx s) :=
  stepFromTone_withWires (w := { w with sg := sg }) (s := { s with corr.curIdx := idx, wires.sg := sg }) rfl

/-! #### Commands and the step -/

theorem sample_withWires (w : Wires) (x : Sample) (s : State) :
    ∃ w', sample x (withWires w s) = withWires w' (sample x s) := by
  have hfires : fires (withWires w s) = fires s := rfl
  have haccept : acceptSample x (withWires w s) = withWires w (acceptSample x s) := rfl
  unfold sample
  rw [hfires, haccept, withWires_corr]
  split_ifs
  · exact decisionStep_withWires w _ _
  · exact ⟨w, rfl⟩

theorem effect_decodeCmd_withWires (w : Wires) (c : CmdWord) (s : State) :
    ∃ w', effect (decodeCmd c) (withWires w s) = withWires w' (effect (decodeCmd c) s) := by
  rcases decodeCmd_cases c with h | ⟨x, h⟩ | h | h | ⟨m, h⟩ | h | h | h <;> rw [h]
  case inr.inl => exact sample_withWires w x s
  case inr.inr.inl => exact ⟨w, submit_withWires w s 0#8 s.corr.curIdx⟩
  case inr.inr.inr.inl => exact ⟨State.reset.wires, rfl⟩
  all_goals exact ⟨w, rfl⟩

/-- Other wires before a step make no difference but to the wires after it. -/
theorem step_withWires {s t : State} (w : Wires) (hstep : step s = .next t) :
    ∃ w', step (withWires w s) = .next (withWires w' t) := by
  rw [step_eq, Host.Outcome.next.injEq] at hstep
  simp only [step_eq, withWires_port, Host.Outcome.next.injEq, ← hstep]
  cases s.port.inputs with
  | nil => exact ⟨w, rfl⟩
  | cons i rest =>
    cases i with
    | rst => exact ⟨State.reset.wires, rfl⟩
    | cmd c τ => exact effect_decodeCmd_withWires w c (accepted τ rest s)
    | tone sg idx τ => exact toneStep_withWires w sg idx (accepted τ rest s)
    | byte b idx τ => exact ⟨w, submit_withWires w (accepted τ rest s) b idx⟩

/-- Settles O60: every step answers a next state (R140), and `step_withWires` compares the two. -/
theorem wiresNeverMatter : Obligations.WiresNeverMatter := by
  intro s w
  have hstep := step_eq s
  obtain ⟨w', hwires⟩ := step_withWires w hstep
  exact ⟨_, w', hstep, hwires⟩

end Sys2Proof.Machine

/-! Raw bits of the opcode table placed as the next input (spec/20_memory.md): a block in `Idle` performs
the operation they decode to (logs 1, 4). -/

namespace Sys2Proof.Machine

/-! ### Raw bits as a packet -/

/-- Raw bits decode to what their packet decodes to. -/
theorem decodeTableWord_eq_some_iff {nbits w : Nat} {i : Instr} :
    decodeTableWord nbits w = some i ↔ ∃ p, packetOfWord nbits w = .ok p ∧ decode p = i := by
  unfold decodeTableWord
  cases packetOfWord nbits w <;> simp

/-- Raw bits never select a `submit` case by another phase than `Idle` (log 4). -/
theorem phase_eq_idle_of_packetOfWord {nbits w : Nat} {p : Phase} {b : Byte} {idx : Idx}
    (h : packetOfWord nbits w = .ok (.frameByte p b idx)) : p = .idle := by
  unfold packetOfWord at h
  split_ifs at h
  case pos => cases h; rfl
  all_goals cases h

/-! ### Placing raw bits and performing them -/

section
variable {nbits w : Nat} {s : State}

/-- Raw bits of a command word are placed as that command, `time_in` unchanged (log 1). -/
theorem withFetchWord_inputs_cmd {c : CmdWord} (h : packetOfWord nbits w = .ok (.cmd c)) :
    (s.withFetchWord nbits w).port.inputs = .cmd c s.port.timeIn :: s.port.inputs := by
  simp only [State.withFetchWord, inputsWithWord, inputOfWord, h]

/-- Raw bits of a frame decoder value are placed as that byte, `time_in` unchanged (logs 1, 4). -/
theorem withFetchWord_inputs_byte {p : Phase} {b : Byte} {idx : Idx}
    (h : packetOfWord nbits w = .ok (.frameByte p b idx)) :
    (s.withFetchWord nbits w).port.inputs = .byte b idx s.port.timeIn :: s.port.inputs := by
  simp only [State.withFetchWord, inputsWithWord, inputOfWord, h]

/-- Accepting the placed input takes it out of the stream again. -/
theorem accepted_withFetchWord :
    accepted s.port.timeIn s.port.inputs (s.withFetchWord nbits w) = quiet s := rfl

/-- A unit-level byte is performed in the state that accepts it, as the `submit` case the phase selects
(R67, R73). -/
theorem step_byte {b : Byte} {idx : Idx} {t : Time} {rest : List Input}
    (h : s.port.inputs = .byte b idx t :: rest) :
    step s = exec (decode (.frameByte s.frame.phase b idx)) (accepted t rest s) := by
  rw [step, h]

/-- In `Idle` the placed raw bits are what the next step performs: the phase that selected their `submit`
case is the phase of the state (R46, logs 1, 4). -/
theorem step_withFetchWord {i : Instr} (hidle : s.frame.phase = .idle)
    (hdecode : decodeTableWord nbits w = some i) :
    step (s.withFetchWord nbits w) = exec i (quiet s) := by
  obtain ⟨p, hp, rfl⟩ := decodeTableWord_eq_some_iff.mp hdecode
  cases p with
  | cmd c => rw [step_cmd (withFetchWord_inputs_cmd hp), accepted_withFetchWord]
  | frameByte q b idx =>
    obtain rfl : q = .idle := phase_eq_idle_of_packetOfWord hp
    have hphase : (s.withFetchWord nbits w).frame.phase = .idle := hidle
    rw [step_byte (withFetchWord_inputs_byte hp), hphase, accepted_withFetchWord]

end

/-- The reset state has no pulse and no condition to end. -/
@[simp] theorem quiet_reset : quiet State.reset = State.reset := rfl

/-- Settles O11: `step_withFetchWord` at reset, which is in `Idle` (R33). -/
theorem fetchWordIsRunFirst : Obligations.FetchWordIsRunFirst := by
  intro nbits w i hdecode
  rw [step_withFetchWord rfl hdecode, quiet_reset]

end Sys2Proof.Machine

/-! The encodings (spec/30_encoding.md): the command word and its fields, the byte classes, and the
unit-level inputs. -/

namespace Sys2Proof.Machine

/-! ### The fields of a command word -/

/-- The operation field is the upper three bits (R61). -/
@[simp] theorem opField_cmdWord (op : BitVec 3) (data : BitVec 16) : opField (cmdWord op data) = op := by
  ext i hi
  simp only [opField, cmdWord, BitVec.getElem_extractLsb', BitVec.getLsbD_append]
  rw [if_neg (by omega), Nat.add_sub_cancel_left, BitVec.getLsbD_eq_getElem hi]

/-- The data field is the lower sixteen bits (R61). -/
@[simp] theorem dataField_cmdWord (op : BitVec 3) (data : BitVec 16) :
    dataField (cmdWord op data) = data := by
  ext i hi
  simp only [dataField, cmdWord, BitVec.getElem_extractLsb', BitVec.getLsbD_append]
  rw [Nat.zero_add, if_pos hi, BitVec.getLsbD_eq_getElem hi]

/-- An `ACK` mask placed in `data` is found there again (R63). -/
@[simp] theorem maskField_setWidth (mask : BitVec 4) : maskField (mask.setWidth 16) = mask := by
  apply BitVec.eq_of_toNat_eq
  simp only [maskField, BitVec.extractLsb'_toNat, BitVec.toNat_setWidth, Nat.shiftRight_zero]
  omega

/-- Taking the `ACK` mask out of `data` and placing it again clears `data[15:4]` (R63). -/
theorem setWidth_maskField (data : BitVec 16) : (maskField data).setWidth 16 = data &&& 0x000F#16 := by
  apply BitVec.eq_of_toNat_eq
  have hmask : data.toNat &&& 15 = data.toNat % 16 := Nat.and_two_pow_sub_one_eq_mod data.toNat 4
  simp only [maskField, BitVec.extractLsb'_toNat, BitVec.toNat_setWidth, Nat.shiftRight_zero,
    BitVec.toNat_and, BitVec.toNat_ofNat, Nat.reducePow, Nat.reduceMod, hmask]
  omega

/-! ### Decoding and encoding a command word -/

theorem bitVec3_cases (op : BitVec 3) : op = 0#3 ∨ op = 1#3 ∨ op = 2#3 ∨ op = 3#3 ∨ op = 4#3
    ∨ op = 5#3 ∨ op = 6#3 ∨ op = 7#3 := by
  revert op
  decide

/-- The decoding table of R62, row `op` counted from 0. -/
theorem decodeCmd_cmdWord (op : BitVec 3) (data : BitVec 16) : decodeCmd (cmdWord op data) =
    [Instr.nop, .sample data, .flush, .clear, .ack (maskField data), .reserved5, .reserved6,
      .reserved7].getD op.toNat .nop := by
  unfold decodeCmd
  rw [opField_cmdWord, dataField_cmdWord]
  rcases bitVec3_cases op with rfl | rfl | rfl | rfl | rfl | rfl | rfl | rfl <;> rfl

/-- A data byte selects the data case of the phase (R67). -/
theorem decodeSubmit_data {b : Byte} (hb : dataByteOk b = true) (p : Phase) (idx : Idx) :
    decodeSubmit p b idx = match p with
      | .idle => .submitDIdle b idx
      | .headerSearch => .submitDHs b idx
      | .readingMessage => .submitDMsg b idx
      | .readingEom => .submitDEom b idx := by
  have hne : b ≠ 0#8 := bne_iff_ne.mp hb
  unfold decodeSubmit
  cases p <;> exact if_neg hne

/-- Settles O1: the command words by `decodeCmd_cmdWord`, the bytes by `decodeSubmit_data`; an internal
operation has no encoding (R72). -/
theorem decodeOfEncodeGivesInstr : Obligations.DecodeOfEncodeGivesInstr := by
  intro i hwf hext
  cases i with
  | nop => exact ⟨_, rfl, decodeCmd_cmdWord 0#3 0#16⟩
  | sample x => exact ⟨_, rfl, decodeCmd_cmdWord 1#3 x⟩
  | flush => exact ⟨_, rfl, decodeCmd_cmdWord 2#3 0#16⟩
  | clear => exact ⟨_, rfl, decodeCmd_cmdWord 3#3 0#16⟩
  | ack mask =>
    exact ⟨_, rfl, (decodeCmd_cmdWord 4#3 _).trans (congrArg Instr.ack (maskField_setWidth mask))⟩
  | reserved5 => exact ⟨_, rfl, decodeCmd_cmdWord 5#3 0#16⟩
  | reserved6 => exact ⟨_, rfl, decodeCmd_cmdWord 6#3 0#16⟩
  | reserved7 => exact ⟨_, rfl, decodeCmd_cmdWord 7#3 0#16⟩
  | submitDIdle b idx => exact ⟨_, rfl, decodeSubmit_data hwf .idle idx⟩
  | submitDHs b idx => exact ⟨_, rfl, decodeSubmit_data hwf .headerSearch idx⟩
  | submitDMsg b idx => exact ⟨_, rfl, decodeSubmit_data hwf .readingMessage idx⟩
  | submitDEom b idx => exact ⟨_, rfl, decodeSubmit_data hwf .readingEom idx⟩
  | submitNIdle idx | submitNHs idx | submitNMsg idx | submitNEom idx => exact ⟨_, rfl, rfl⟩
  | table | corr | disc | dcd | integ | dlladj | phadv | bitdec | prelock | bytecnt | classifyPass
    | classifyFail => exact nomatch hext

/-- Settles O2: by the eight rows of `decodeCmd_cmdWord`. Only the row of `ACK` keeps a part of `data`. -/
theorem encodeOfDecodedCommandIsCanonicalWord : Obligations.EncodeOfDecodedCommandIsCanonicalWord := by
  intro op data
  rw [decode, ← cmdWord, decodeCmd_cmdWord]
  rcases bitVec3_cases op with rfl | rfl | rfl | rfl | rfl | rfl | rfl | rfl
  case inr.inr.inr.inr.inl =>
    exact congrArg (fun d => some (Packet.cmd (cmdWord 4#3 d))) (setWidth_maskField data)
  all_goals rfl

/-- Settles O3: five closed words. -/
theorem writtenOutWordsDecode : Obligations.WrittenOutWordsDecode := by
  unfold Obligations.WrittenOutWordsDecode
  decide

/-- Settles O5: the bounds of `ALLOWED` are those of the table, read as naturals. -/
theorem allowedBytesAreControlRangeAndPrintable :
    Obligations.AllowedBytesAreControlRangeAndPrintable := by
  intro b
  simp only [allowed, Bool.or_eq_true, Bool.and_eq_true, decide_eq_true_iff, BitVec.le_def,
    BitVec.toNat_ofNat]

/-! ### A step on a unit-level input -/

/-- Settles O7: `step_byte`, with the accepting state written out. -/
theorem stepRunsTheSelectedSubmitCase : Obligations.StepRunsTheSelectedSubmitCase := by
  intro s b idx t rest h
  rw [step_byte h, accepted_eq]

/-- A unit-level tone is a decision step with that sign in the state that accepts it (R73, log 3). -/
theorem step_tone {s : State} {sg : ToneSign} {idx : Idx} {t : Time} {rest : List Input}
    (h : s.port.inputs = .tone sg idx t :: rest) : step s = .next (toneStep sg idx (accepted t rest s)) := by
  rw [step, h]

/-- Settles O8: the decision step of `step_tone`, read as the operations of R90 one by one. -/
theorem stepOnToneRunsTheSyncOperations : Obligations.StepOnToneRunsTheSyncOperations := by
  intro s sg idx t rest h
  obtain ⟨u, v, hloop, hbit, hv⟩ :=
    runOps_stepFromTone { accepted t rest s with corr.curIdx := idx, wires.sg := sg }
  refine ⟨u, v, hloop, hbit, ?_⟩
  rw [step_tone h, toneStep, hv]

end Sys2Proof.Machine

/-! ### The stored text (R66, R67)

Bytes reach the frame decoder from the synchronizer only: the byte a `CLASSIFY` passes is allowed (R98),
and otherwise it is the null byte (R99, R132), which no rule stores. -/

namespace Sys2Proof.Safety

open Sys2Proof.Machine

/-- A space of `size` cells that holds `n` bytes of allowed text, in canonical form. -/
structure TextOk (size : Nat) (m : Memory 8) (n : Nat) : Prop where
  wf : Memory.wf size m
  text : AllowedBelow m n

/-- The three text spaces: the buffers of the frame decoder and the last message. -/
structure StoredText (f : Frame) (o : Outs) : Prop where
  head : TextOk Config.headLen f.head f.headlen.val
  msg : TextOk Config.msgCap f.msg f.msglen.val
  last : TextOk Config.lastMsgCap o.lastMsg o.lastMsgLen.val

/-- `TextAllowed` by units: the delay line, the text spaces, the inputs still to come. -/
theorem textAllowed_iff (s : State) :
    TextAllowed s ↔
      Memory.wf Config.corrLen s.corr.win ∧ StoredText s.frame s.outs ∧ OnlyPortInputs s := by
  constructor
  · rintro ⟨⟨hwin, whead, wmsg, wlast⟩, hhead, hmsg, hlast, hin⟩
    exact ⟨hwin, ⟨⟨whead, hhead⟩, ⟨wmsg, hmsg⟩, ⟨wlast, hlast⟩⟩, hin⟩
  · rintro ⟨hwin, ⟨⟨whead, hhead⟩, ⟨wmsg, hmsg⟩, ⟨wlast, hlast⟩⟩, hin⟩
    exact ⟨⟨hwin, whead, wmsg, wlast⟩, hhead, hmsg, hlast, hin⟩

/-! #### Text spaces -/

theorem textOk_nil (size : Nat) : TextOk size [] 0 := ⟨Memory.wf_nil size, allowedBelow_nil⟩

/-- Appending an allowed byte where there is room (R112, R114). -/
theorem textOk_append {size n : Nat} {m : Memory 8} {b : Byte} (h : TextOk size m n) (hn : n < size)
    (hb : allowed b = true) : TextOk size (memWrite m n b) (n + 1) :=
  ⟨memWrite_wf h.wf hn b, allowedBelow_append h.wf h.text hb⟩

/-- The composed message of an allowed text (R118). -/
theorem textOk_composed {s : State} (h : TextOk Config.msgCap s.frame.msg s.frame.msglen.val) :
    TextOk Config.lastMsgCap (memFill [] 0 (composedMessage s))
      (Fin.ofNat 273 (composedMessage s).length).val := by
  have hlen := composedMessage_length_le s
  rw [composedMessage_len_val]
  exact ⟨memFill_wf (Memory.wf_nil _) (by rwa [Nat.zero_add]),
    allowedBelow_memFill hlen fun _ hb => allowed_of_mem_composedMessage h.text.1 hb⟩

/-! #### The frame decoder stores allowed bytes only -/

theorem compareHeader_storedText {s : State} (h : StoredText s.frame s.outs) (idx : Idx) :
    StoredText (compareHeader idx s).frame (compareHeader idx s).outs := by
  rcases compareHeader_cases idx s with ⟨-, he⟩ | ⟨-, he⟩ | ⟨-, -, he⟩ <;> rw [he] <;>
    exact ⟨textOk_nil _, textOk_nil _, h.last⟩

theorem appendHead_storedText {s : State} (h : StoredText s.frame s.outs) {b : Byte}
    (hb : allowed b = true) : StoredText (appendHead b s).frame (appendHead b s).outs := by
  by_cases hroom : s.frame.headlen.val < 4
  · have hlen := appendHead_headlen hroom b
    rw [appendHead_room hroom] at hlen ⊢
    exact ⟨hlen ▸ textOk_append h.head hroom hb, h.msg, h.last⟩
  · rw [appendHead_full (by omega)]
    exact h

theorem headerByte_storedText {s : State} (h : StoredText s.frame s.outs) {b : Byte}
    (hb : allowed b = true) (idx : Idx) :
    StoredText (headerByte b idx s).frame (headerByte b idx s).outs := by
  unfold headerByte
  split
  · exact compareHeader_storedText (appendHead_storedText h hb) idx
  · exact appendHead_storedText h hb

theorem messageByte_storedText {s : State} (h : StoredText s.frame s.outs) {b : Byte}
    (hb : allowed b = true) : StoredText (messageByte b s).frame (messageByte b s).outs := by
  unfold messageByte
  split
  next hroom =>
    have hlen : (s.frame.msglen + 1).val = s.frame.msglen.val + 1 :=
      Fin.val_add_one_of_lt (Fin.lt_def.mpr hroom)
    exact ⟨h.head, hlen ▸ textOk_append h.msg hroom hb, h.last⟩
  next => exact h

/-- The null byte stores nothing but the composed message (R116 to R119). -/
theorem submit_null_storedText {s : State} (h : StoredText s.frame s.outs) (idx : Idx) :
    StoredText (submit 0#8 idx s).frame (submit 0#8 idx s).outs := by
  rw [submit_null]
  cases s.frame.phase with
  | idle => exact h
  | headerSearch => exact ⟨textOk_nil _, textOk_nil _, h.last⟩
  | readingMessage => exact ⟨textOk_nil _, textOk_nil _, textOk_composed h.msg⟩
  | readingEom => exact ⟨textOk_nil _, textOk_nil _, h.last⟩

/-- An allowed byte is a data byte, since 0x00 is not allowed (R66, R67). -/
theorem ne_zero_of_allowed {b : Byte} (hb : allowed b = true) : b ≠ 0#8 := by
  rintro rfl
  exact nomatch hb

/-- An allowed byte may be stored in every phase (R111 to R115). -/
theorem submit_allowed_storedText {s : State} (h : StoredText s.frame s.outs) {b : Byte}
    (hb : allowed b = true) (idx : Idx) :
    StoredText (submit b idx s).frame (submit b idx s).outs := by
  rw [submit_data (ne_zero_of_allowed hb)]
  cases s.frame.phase with
  | idle => exact headerByte_storedText (s := setPhase .headerSearch s) ⟨h.head, h.msg, h.last⟩ hb idx
  | headerSearch => exact headerByte_storedText h hb idx
  | readingMessage => exact messageByte_storedText h hb
  | readingEom => exact h

/-! #### The synchronizer submits allowed bytes and the null byte only -/

/-- A completed byte is submitted where it is allowed, and the null byte where it is not (R97 to R99). -/
theorem bytecnt_storedText {s : State} (h : StoredText s.frame s.outs) :
    StoredText (bytecnt s).frame (bytecnt s).outs := by
  rcases bytecnt_cases s with ⟨-, he⟩ | ⟨-, -, he⟩ | ⟨-, -, hallowed, he⟩ | ⟨-, -, -, he⟩ <;> rw [he]
  · exact h
  · exact h
  · exact submit_allowed_storedText h hallowed s.corr.curIdx
  · exact submit_null_storedText
      (s := { s with sync.lock := false, port.conds := s.port.conds ++ [.framingFailure] }) h s.corr.curIdx

theorem prelock_storedText {s : State} (h : StoredText s.frame s.outs) :
    StoredText (prelock s).frame (prelock s).outs := by
  rcases prelock_cases s with ⟨-, -, he⟩ | ⟨-, he⟩ <;> rw [he]
  · exact h
  · exact bytecnt_storedText h

theorem stepFromTone_storedText {s : State} (h : StoredText s.frame s.outs) :
    StoredText (stepFromTone s).frame (stepFromTone s).outs := by
  obtain ⟨d, n, q, r, -, he | ⟨l, he⟩⟩ := stepFromTone_cases s <;> rw [he]
  · exact h
  · exact prelock_storedText (s := { s with
      sync.dcdShreg := d, sync.integ := n, sync.sphase := q, sync.lasts := l, wires.wrapped := r }) h

/-! #### Commands and the step -/

/-- A `SAMPLE` shifts the delay line and submits at most one byte, in its decision step (R131). -/
theorem sample_textAllowed {s : State} (hs : TextAllowed s) (x : Sample) : TextAllowed (sample x s) := by
  obtain ⟨hwin, htext, hin⟩ := (textAllowed_iff s).mp hs
  obtain ⟨win', hshift, h⟩ := sample_spec x s
  obtain ⟨hwin', -⟩ := hshift hwin
  rcases h with ⟨-, h⟩ | ⟨-, -, h⟩ | ⟨-, h⟩ <;> rw [h, textAllowed_iff]
  · exact ⟨hwin', htext, hin⟩
  · exact ⟨hwin', htext, hin⟩
  · rw [OnlyPortInputs, stepFromTone_corr, stepFromTone_inputs]
    exact ⟨hwin', stepFromTone_storedText htext, hin⟩

/-- `FLUSH` submits the null byte (R132). -/
theorem flush_textAllowed {s : State} (hs : TextAllowed s) : TextAllowed (flush s) := by
  obtain ⟨hwin, htext, hin⟩ := (textAllowed_iff s).mp hs
  rw [textAllowed_iff, OnlyPortInputs, flush, submit_corr, submit_inputs]
  exact ⟨hwin, submit_null_storedText htext _, hin⟩

/-- The reset registers hold no text (R33, R160, R161). -/
theorem resetRegisters_textAllowed {s : State} (hin : OnlyPortInputs s) :
    TextAllowed (resetRegisters s) :=
  (textAllowed_iff _).mpr ⟨Memory.wf_nil _, ⟨textOk_nil _, textOk_nil _, textOk_nil _⟩, hin⟩

theorem command_textAllowed {s : State} (hs : TextAllowed s) (w : CmdWord) :
    TextAllowed (effect (decodeCmd w) s) := by
  rcases effect_decodeCmd_cases w s with ⟨x, -, h⟩ | h | ⟨-, h⟩ | ⟨f, c, h⟩ <;> rw [h]
  · exact sample_textAllowed hs x
  · exact flush_textAllowed hs
  · obtain ⟨-, -, hin⟩ := (textAllowed_iff s).mp hs
    exact resetRegisters_textAllowed hin
  · exact hs

/-- What the next input is where only commands and reset edges are to come (R9). -/
theorem onlyPortInputs_cons {s : State} {i : Input} {rest : List Input} (hs : OnlyPortInputs s)
    (h : s.port.inputs = i :: rest) : isPortInput i = true ∧ ∀ j ∈ rest, isPortInput j = true := by
  rw [OnlyPortInputs, h, List.forall_mem_cons] at hs
  exact hs

/-- Settles O54: no text after reset; then by the input the step performs. A unit-level input is none of
the port's. -/
theorem onlyAllowedBytesAreEverStored : Obligations.OnlyAllowedBytesAreEverStored := by
  refine ⟨resetRegisters_textAllowed (s := State.reset) (fun _ h => nomatch h), fun s t hs hstep => ?_⟩
  obtain ⟨hwin, htext, hin⟩ := (textAllowed_iff s).mp hs
  rcases step_cases hstep with ⟨-, rfl⟩ | ⟨rest, h, rfl⟩ | ⟨w, τ, rest, h, rfl⟩
    | ⟨sg, idx, τ, rest, h, -⟩ | ⟨b, idx, τ, rest, h, -⟩
  · exact hs
  · exact resetRegisters_textAllowed (onlyPortInputs_cons hin h).2
  · have haccepted : TextAllowed (accepted τ rest s) :=
      (textAllowed_iff _).mpr ⟨hwin, htext, (onlyPortInputs_cons hin h).2⟩
    exact command_textAllowed haccepted w
  · exact nomatch (onlyPortInputs_cons hin h).1
  · exact nomatch (onlyPortInputs_cons hin h).1

end Sys2Proof.Safety

/-! The Correlator Bank (spec/40_correlator.md): what `CORR` and `DISC` leave on the wires, and the properties
of the exact-real reference (R84). -/

namespace Sys2Proof.Machine

/-! ### The window as the correlator reads it -/

/-- Two spaces have the same first `n` cells where every one of them reads the same. -/
theorem memCells_congr {w n : Nat} {m m' : Memory w} (h : ∀ a, a < n → memRead m a = memRead m' a) :
    memCells m n = memCells m' n :=
  List.map_congr_left fun a ha => h a (List.mem_range.mp ha)

/-- The window is its 42 cells, and nothing else of the state (R81). -/
theorem window_congr {s s' : State} (h : ∀ a, a < 42 → memRead s.corr.win a = memRead s'.corr.win a) :
    window s = window s' :=
  memCells_congr h

/-- Silence correlates to 0 against every table (R85). -/
theorem correlate_window_of_silent {s : State} (h : ∀ a, a < 42 → memRead s.corr.win a = 0#16)
    (ref : RefTable) : correlate (window s) ref = 0 := by
  have hzero : (window s).all (fun v => v == 0#16) = true := by
    rw [window, memCells, List.all_map, List.all_eq_true]
    exact fun a ha => beq_iff_eq.mpr (h a (List.mem_range.mp ha))
  exact if_pos hzero

/-- Silence is neither mark nor space (R85). -/
theorem toneSign_window_of_silent {s : State} (h : ∀ a, a < 42 → memRead s.corr.win a = 0#16) :
    toneSign (window s) = .neither := by
  simp only [toneSign, correlate_window_of_silent h]
  exact if_pos ⟨rfl, rfl, rfl, rfl⟩

/-! ### `CORR` and `DISC` -/

/-- `CORR` against each of the four tables (R81). -/
theorem exec_corr_each (s : State) :
    exec (.corr .markI) s = .next { s with wires.mi := correlate (window s) .markI }
      ∧ exec (.corr .markQ) s = .next { s with wires.mq := correlate (window s) .markQ }
      ∧ exec (.corr .spaceI) s = .next { s with wires.si := correlate (window s) .spaceI }
      ∧ exec (.corr .spaceQ) s = .next { s with wires.sq := correlate (window s) .spaceQ } :=
  ⟨rfl, rfl, rfl, rfl⟩

/-- `DISC` writes the four correlations of the window and its tone decision (R82, R83). -/
theorem exec_disc (s : State) :
    exec .disc s = .next { s with wires :=
      ⟨correlate (window s) .markI, correlate (window s) .markQ, correlate (window s) .spaceI,
        correlate (window s) .spaceQ, toneSign (window s), s.wires.wrapped⟩ } := rfl

/-- Settles O22: the four results are the correlations of the common window. -/
theorem corrWritesItsOwnResultOnly : Obligations.CorrWritesItsOwnResultOnly := by
  intro s s' hwin
  obtain ⟨hmi, hmq, hsi, hsq⟩ := exec_corr_each s
  obtain ⟨hmi', hmq', hsi', hsq'⟩ := window_congr hwin ▸ exec_corr_each s'
  exact ⟨correlate (window s), correlate_window_of_silent,
    ⟨hmi, hmi'⟩, ⟨hmq, hmq'⟩, ⟨hsi, hsi'⟩, ⟨hsq, hsq'⟩⟩

/-- Settles O23: both operations read the common window. -/
theorem discObeysTheTwoLawsOfNumerics : Obligations.DiscObeysTheTwoLawsOfNumerics := by
  intro s s' hwin
  have heq := window_congr hwin
  exact ⟨_, _, _, _, _, exec_corr_each s, heq ▸ exec_corr_each s', exec_disc s, heq ▸ exec_disc s',
    toneSign_window_of_silent⟩

/-! ### The reference discriminant in exact arithmetic

`f` is the difference of two energies of one form, that of a tone of a given increment and starting phase
(R82), so each property of R84 is a property of that form. -/

/-- The in-phase correlation of `L` samples with the tone whose tables step by `inc` from the phase `p`
(R80, R81). -/
noncomputable def inPhase (inc p : ℝ) (x : Nat → ℝ) : ℝ :=
  ∑ i ∈ Finset.range Config.corrLen, x i * Real.cos (inc * i + p)

/-- The quadrature correlation with the same tone (R80, R81). -/
noncomputable def quadrature (inc p : ℝ) (x : Nat → ℝ) : ℝ :=
  ∑ i ∈ Finset.range Config.corrLen, x i * Real.sin (inc * i + p)

/-- The energy at that tone: `I^2 + Q^2` (R82). -/
noncomputable def toneEnergy (inc p : ℝ) (x : Nat → ℝ) : ℝ := inPhase inc p x ^ 2 + quadrature inc p x ^ 2

/-- Mark energy minus space energy (R82). -/
theorem refDiscriminant_eq (pm ps : ℝ) (x : Nat → ℝ) :
    refDiscriminant pm ps x =
      toneEnergy (refIncrement Config.fMarkTenths) pm x
        - toneEnergy (refIncrement Config.fSpaceTenths) ps x := rfl

theorem inPhase_smul (inc p c : ℝ) (x : Nat → ℝ) :
    inPhase inc p (fun i => c * x i) = c * inPhase inc p x := by
  simp only [inPhase, mul_assoc, ← Finset.mul_sum]

theorem quadrature_smul (inc p c : ℝ) (x : Nat → ℝ) :
    quadrature inc p (fun i => c * x i) = c * quadrature inc p x := by
  simp only [quadrature, mul_assoc, ← Finset.mul_sum]

theorem toneEnergy_smul (inc p c : ℝ) (x : Nat → ℝ) :
    toneEnergy inc p (fun i => c * x i) = c ^ 2 * toneEnergy inc p x := by
  rw [toneEnergy, inPhase_smul, quadrature_smul, toneEnergy]
  ring

/-- A starting phase `p` turns the pair `(I, Q)` by `p` (R84 (d)): its first component. -/
theorem inPhase_phase (inc p : ℝ) (x : Nat → ℝ) :
    inPhase inc p x = inPhase inc 0 x * Real.cos p - quadrature inc 0 x * Real.sin p := by
  simp only [inPhase, quadrature, add_zero, Real.cos_add, mul_sub, Finset.sum_sub_distrib,
    Finset.sum_mul, mul_assoc]

/-- The second component of the turned pair. -/
theorem quadrature_phase (inc p : ℝ) (x : Nat → ℝ) :
    quadrature inc p x = quadrature inc 0 x * Real.cos p + inPhase inc 0 x * Real.sin p := by
  simp only [inPhase, quadrature, add_zero, Real.sin_add, mul_add, Finset.sum_add_distrib,
    Finset.sum_mul, mul_assoc]

/-- A turn keeps `I^2 + Q^2` (R84 (d)). -/
theorem toneEnergy_phase (inc p : ℝ) (x : Nat → ℝ) : toneEnergy inc p x = toneEnergy inc 0 x := by
  rw [toneEnergy, inPhase_phase inc p, quadrature_phase inc p, toneEnergy]
  linear_combination (inPhase inc 0 x ^ 2 + quadrature inc 0 x ^ 2) * Real.sin_sq_add_cos_sq p

/-- One sample has the same energy at every tone: its square (R84 (e)). -/
theorem toneEnergy_single (inc p v : ℝ) {j : Nat} (hj : j < Config.corrLen) :
    toneEnergy inc p (fun i => if i = j then v else 0) = v ^ 2 := by
  have hI : inPhase inc p (fun i => if i = j then v else 0) = v * Real.cos (inc * j + p) := by
    simp only [inPhase, ite_mul, zero_mul, Finset.sum_ite_eq', Finset.mem_range, if_pos hj]
  have hQ : quadrature inc p (fun i => if i = j then v else 0) = v * Real.sin (inc * j + p) := by
    simp only [quadrature, ite_mul, zero_mul, Finset.sum_ite_eq', Finset.mem_range, if_pos hj]
  rw [toneEnergy, hI, hQ]
  linear_combination v ^ 2 * Real.cos_sq_add_sin_sq (inc * j + p)

theorem refDiscriminant_smul (pm ps c : ℝ) (x : Nat → ℝ) :
    refDiscriminant pm ps (fun i => c * x i) = c ^ 2 * refDiscriminant pm ps x := by
  rw [refDiscriminant_eq, refDiscriminant_eq, toneEnergy_smul, toneEnergy_smul, mul_sub]

/-- Settles O26: negating is scaling by -1, whose square is 1. -/
theorem referenceDiscriminantScalesBySquare : Obligations.ReferenceDiscriminantScalesBySquare := by
  intro pm ps c x
  have hneg := refDiscriminant_smul pm ps (-1) x
  simp only [neg_one_mul, neg_one_sq, one_mul] at hneg
  exact ⟨refDiscriminant_smul pm ps c x, hneg⟩

/-- Settles O27: `toneEnergy_phase` for each of the two tones. -/
theorem referenceDiscriminantIgnoresStartingPhase :
    Obligations.ReferenceDiscriminantIgnoresStartingPhase := by
  intro pm ps x
  rw [refDiscriminant_eq, refDiscriminant_eq, toneEnergy_phase _ pm, toneEnergy_phase _ ps]

/-- Settles O28: the mark and the space energy are both `v ^ 2`. -/
theorem referenceSingleSampleBalances : Obligations.ReferenceSingleSampleBalances := by
  intro j v hj
  rw [refDiscriminant_eq, toneEnergy_single _ _ _ hj, toneEnergy_single _ _ _ hj, sub_self]

/-! ### The reference decision -/

/-- The sign of a number is that of its positive multiples (R83). -/
theorem signOfReal_mul {c : ℝ} (hc : 0 < c) (f : ℝ) : signOfReal (c * f) = signOfReal f := by
  have hneg : c * f < 0 ↔ f < 0 := smul_neg_iff_of_pos_left hc
  simp only [signOfReal, mul_pos_iff_of_pos_left hc, hneg]

/-- `SCALE` is a factor of every sample value (R81). -/
theorem sampleValues_eq_mul (scale : ℝ) (win : Memory 16) :
    sampleValues scale win = fun i => scale * sampleValues 1 win i := by
  funext i
  simp only [sampleValues, one_mul]

/-- So it multiplies `f` by its square (R84 (b)). -/
theorem refDiscriminant_sampleValues (pm ps scale : ℝ) (win : Memory 16) :
    refDiscriminant pm ps (sampleValues scale win) =
      scale ^ 2 * refDiscriminant pm ps (sampleValues 1 win) := by
  rw [sampleValues_eq_mul scale win, refDiscriminant_smul]

/-- A window that reads 0 has the discriminant 0 (R84 (a)). -/
theorem refDiscriminant_zero (pm ps : ℝ) : refDiscriminant pm ps (fun _ => 0) = 0 := by
  simpa using refDiscriminant_smul pm ps 0 fun _ => 0

/-- The samples of an empty window are 0, whatever the `SCALE` (R33). -/
theorem sampleValues_nil (scale : ℝ) : sampleValues scale [] = fun _ => 0 := by
  funext i
  simp [sampleValues, sint16]

/-- Settles O25: silence has `f = 0`, and a positive `SCALE` keeps the sign of `f`. -/
theorem referenceDecisionIgnoresScale : Obligations.ReferenceDecisionIgnoresScale := by
  refine ⟨fun scale => ?_, fun scale win hscale => ?_⟩
  · rw [refToneSign, sampleValues_nil, refDiscriminant_zero]
    simp [signOfReal]
  · rw [refToneSign, refDiscriminant_sampleValues, signOfReal_mul (pow_pos hscale 2), refToneSign]

/-- Settles O24: the cosine and the sine of the phase 0. -/
theorem referenceTablesStartAtPhaseZero : Obligations.ReferenceTablesStartAtPhaseZero := by
  simp [Obligations.ReferenceTablesStartAtPhaseZero, refEntry]

end Sys2Proof.Machine

/-! The Bit Synchronizer (spec/41_bitsync.md): the result and the frame of each of its operations. Where
a register's new value is a bit vector, a lemma gives it as the number or the bits that the rule states. -/

namespace Sys2Proof.Machine

/-! ### The tone decision and the loop (R91 to R94) -/

/-- Shifting a bit into `dcd_shreg` doubles it modulo 4 and adds the bit (R91). -/
theorem shiftIn_toNat (r : BitVec 2) (b : Bool) :
    (r.extractLsb' 0 1 ++ BitVec.ofBool b).toNat = (2 * r.toNat + if b = true then 1 else 0) % 4 := by
  revert r b
  decide

/-- Settles O29: `dcd_sync`, its bit vector read as a number. -/
theorem dcdShiftsTheToneDecisionIn : Obligations.DcdShiftsTheToneDecisionIn := by
  intro s
  refine ⟨(dcd s).sync.dcdShreg, rfl, ?_⟩
  simp only [dcd_sync, shiftIn_toNat, beq_iff_eq]

/-- Settles O30: `integ_eq` is the frame and `integ_toInt` the value. -/
theorem integMovesByOneAndSaturates : Obligations.IntegMovesByOneAndSaturates := fun s =>
  ⟨(integ s).sync.integ, congrArg Host.Outcome.next (integ_eq s), integ_toInt s⟩

/-- The two most recent decisions differ in two of the four contents of `dcd_shreg` (R93). -/
theorem transition_iff (s : State) :
    transition s = true ↔ s.sync.dcdShreg = 1#2 ∨ s.sync.dcdShreg = 2#2 := by
  have key : ∀ r : BitVec 2, (r.getLsbD 0 ^^ r.getLsbD 1) = true ↔ r = 1#2 ∨ r = 2#2 := by decide
  exact key s.sync.dcdShreg

/-- `GAIN` is one half and `MAX_STEP` is 8192 (R6, R93). -/
theorem correction_eq (d : Nat) : correction d = min (d / 2) 8192 := by
  rw [correction, Nat.mul_one]

/-- The corrected phase with the parameters of R6 put in (R93). -/
theorem nudged_eq (p : Nat) : nudged p =
    if p < 32381 then (if 1548 < p then p - min (p / 2) 8192 else p)
    else if p < 63988 then p + min ((65536 - p) / 2) 8192 else p := by
  rw [nudged, correction_eq, correction_eq]

/-- Settles O31: `dlladj_eq` is the frame and `dlladj_toNat` the value. -/
theorem dlladjHalvesTheDistanceUpToACap : Obligations.DlladjHalvesTheDistanceUpToACap := by
  intro s
  refine ⟨(dlladj s).sync.sphase, congrArg Host.Outcome.next (dlladj_eq s), ?_⟩
  rw [dlladj_toNat, nudged_eq]
  simp only [transition_iff]

/-- Settles O32: `phadv_toNat`. -/
theorem phadvAdvancesModuloPhaseMod : Obligations.PhadvAdvancesModuloPhaseMod := fun s =>
  ⟨(phadv s).sync.sphase, rfl, phadv_toNat s⟩

/-! ### The decided bit (R95) -/

/-- A bit enters `lasts` at bit 7 and every other bit moves one place down (R6 `BIT_ORDER`, R95). -/
theorem getLsbD_shiftLasts (bit : Bool) (l : BitVec 8) (k : Nat) :
    (shiftLasts bit l).getLsbD k = if k < 7 then l.getLsbD (k + 1) else decide (k = 7) && bit := by
  have happend : shiftLasts bit l = BitVec.ofBool bit ++ l.extractLsb' 1 7 := rfl
  rw [happend, BitVec.getLsbD_append]
  by_cases hk : k < 7
  · simp [hk, Nat.add_comm]
  · have h7 : k - 7 = 0 ↔ k = 7 := by omega
    simp [hk, h7]

/-- Settles O33: `getLsbD_shiftLasts` at bit 7 and below it. -/
theorem bitdecShiftsTheDecidedBitIn : Obligations.BitdecShiftsTheDecidedBitIn := by
  intro s
  refine ⟨shiftLasts (decidedBit s) s.sync.lasts, rfl, ?_, fun k hk => ?_⟩
  · rw [getLsbD_shiftLasts]
    rfl
  · rw [getLsbD_shiftLasts, if_pos hk]

/-! ### `CLASSIFY` (R98, R99) -/

/-- The state in which `CLASSIFY.FAIL` submits the null byte: the framing failure is signalled and the
lock is lost (R99). -/
def framingFailed (s : State) : State :=
  { s with sync.lock := false, port.conds := s.port.conds ++ [.framingFailure] }

section
variable {s : State}

theorem classifyPass_allowed (h : allowed s.sync.lasts = true) :
    classifyPass s = submit s.sync.lasts s.corr.curIdx s := if_pos h

theorem classifyPass_notAllowed (h : allowed s.sync.lasts = false) : classifyPass s = s := by
  rw [classifyPass, h, if_neg Bool.false_ne_true]

theorem classifyFail_allowed (h : allowed s.sync.lasts = true) : classifyFail s = s := if_pos h

theorem classifyFail_notAllowed (h : allowed s.sync.lasts = false) :
    classifyFail s = submit 0#8 s.corr.curIdx (framingFailed s) := by
  rw [classifyFail, h, if_neg Bool.false_ne_true]
  rfl

end

/-- Settles O36: the byte is submitted, and `submit` leaves the correlator and the synchronizer alone. -/
theorem classifyPassSubmitsAllowedBytes : Obligations.ClassifyPassSubmitsAllowedBytes := by
  refine ⟨fun s h => ?_, fun s h => congrArg Host.Outcome.next (classifyPass_notAllowed h)⟩
  exact ⟨submit s.sync.lasts s.corr.curIdx s, congrArg Host.Outcome.next (classifyPass_allowed h),
    exec_decodeSubmit _ _ s, submit_corr _ _ s, submit_sync _ _ s⟩

/-- Settles O37: the null byte is submitted in the state that has lost `lock`, and `submit` leaves that
state's correlator and synchronizer alone. -/
theorem classifyFailDropsLockAndSubmitsNull : Obligations.ClassifyFailDropsLockAndSubmitsNull := by
  refine ⟨fun s h => ?_, fun s h => congrArg Host.Outcome.next (classifyFail_allowed h)⟩
  exact ⟨submit 0#8 s.corr.curIdx (framingFailed s),
    congrArg Host.Outcome.next (classifyFail_notAllowed h),
    exec_decodeSubmit _ _ (framingFailed s), submit_corr _ _ _, submit_sync _ _ _⟩

/-! ### `BYTECNT` and `PRELOCK` (R96, R97) -/

section
variable {s : State}

/-- While not locked nothing is counted (R97). -/
theorem bytecnt_unlocked (hlock : s.sync.lock = false) : bytecnt s = s := by
  rw [bytecnt, hlock, if_neg Bool.false_ne_true]

/-- A bit below the eighth is counted (R97). -/
theorem bytecnt_counted (hlock : s.sync.lock = true) (hcnt : s.sync.bitcnt.toNat < 7) :
    bytecnt s = { s with sync.bitcnt := s.sync.bitcnt + 1#3 } := by
  rw [bytecnt, if_pos hlock, if_neg (by omega)]

/-- The eighth bit completes a byte (R97). -/
theorem bytecnt_completed (hlock : s.sync.lock = true) (hcnt : s.sync.bitcnt.toNat = 7) :
    bytecnt s = { classify s with sync.bitcnt := 0#3 } := by
  rw [bytecnt, if_pos hlock, if_pos (by omega)]

end

/-- `CLASSIFY` is the operation that the class of the byte selects (R97 to R99). -/
theorem exec_classify (s : State) :
    exec (if allowed s.sync.lasts then .classifyPass else .classifyFail) s = .next (classify s) := by
  unfold classify
  split
  · rfl
  · rfl

/-- Settles O35: one clause for each equation of `bytecnt`. -/
theorem bytecntCountsToEight : Obligations.BytecntCountsToEight := by
  refine fun s => ⟨fun hlock => ?_, fun hlock hcnt => ?_, fun hlock hcnt => ?_⟩
  · exact congrArg Host.Outcome.next (bytecnt_unlocked hlock)
  · refine ⟨s.sync.bitcnt + 1#3, congrArg Host.Outcome.next (bytecnt_counted hlock hcnt), ?_⟩
    have hlt : s.sync.bitcnt.toNat + (1#3).toNat < 2 ^ 3 := Nat.succ_lt_succ hcnt
    exact BitVec.toNat_add_of_lt hlt
  · exact ⟨classify s, exec_classify s, congrArg Host.Outcome.next (bytecnt_completed hlock hcnt)⟩

/-- A preamble match outside `ReadingMessage` locks (R96). -/
theorem prelock_matched {s : State} (h : s.sync.lasts = Config.preamble)
    (hphase : s.frame.phase ≠ .readingMessage) :
    prelock s = { s with sync.lock := true, sync.bitcnt := 0#3 } := if_pos ⟨h, hphase⟩

/-- Without a match, or in `ReadingMessage`, the bit goes on to `BYTECNT` (R96). -/
theorem prelock_unmatched {s : State}
    (h : s.sync.lasts ≠ Config.preamble ∨ s.frame.phase = .readingMessage) : prelock s = bytecnt s :=
  if_neg fun ⟨hlasts, hphase⟩ => h.elim (· hlasts) hphase

/-- Settles O34: `prelock_matched` and `prelock_unmatched`. -/
theorem prelockMatchesOrCounts : Obligations.PrelockMatchesOrCounts :=
  ⟨fun _ hlasts hphase => congrArg Host.Outcome.next (prelock_matched hlasts hphase),
    fun s h => ⟨bytecnt s, congrArg Host.Outcome.next (prelock_unmatched h), rfl⟩⟩

end Sys2Proof.Machine

/-! The Frame Decoder (spec/42_frame.md): the next state of each of its eight operations, the transition
table of the phase, and the two whole messages of R121. -/

namespace Sys2Proof.Machine

/-! ### The header window (R111 to R113) -/

/-- The window a fourth byte completes: the three stored bytes and that byte (R113). -/
def completedWindow (head : Memory 8) (b : Byte) : List Byte :=
  [memRead head 0, memRead head 1, memRead head 2, b]

/-- The next state where the window reads `ZCZC`: `ReadingMessage`, and an alert has begun (R113). -/
def headerOpened (idx : Idx) (s : State) : State :=
  { s with
    outs.headerStart := idx, outs.inAlert := true
    frame := { phase := .readingMessage, head := [], headlen := 0, msg := [], msglen := 0 }
    iface.evflags := s.iface.evflags ||| 1#4, port.evOut := s.port.evOut ||| 1#4 }

/-- The next state where the window reads `NNNN`: `ReadingEOM` (R113). -/
def eomOpened (idx : Idx) (s : State) : State :=
  { s with
    outs.eomStart := idx
    frame := { phase := .readingEom, head := [], headlen := 0, msg := [], msglen := 0 }
    iface.evflags := s.iface.evflags ||| 4#4, port.evOut := s.port.evOut ||| 4#4 }

/-- The next state where the window reads neither: back to `Idle` with a negative match (R113). -/
def headerRejected (s : State) : State :=
  { s with
    frame := { phase := .idle, head := [], headlen := 0, msg := [], msglen := 0 }
    port.conds := s.port.conds ++ [.negativeMatch] }

/-- The next state a completed window selects (R113). -/
def windowResult (win : List Byte) (idx : Idx) (s : State) : State :=
  if win = Config.hdrBegin then headerOpened idx s
  else if win = Config.eom then eomOpened idx s
  else headerRejected s

theorem windowResult_phase (win : List Byte) (idx : Idx) (s : State) :
    (windowResult win idx s).frame.phase =
      if win = Config.hdrBegin then .readingMessage
      else if win = Config.eom then .readingEom
      else .idle := by
  unfold windowResult
  split_ifs <;> rfl

theorem windowResult_hdrBegin (idx : Idx) (s : State) :
    windowResult Config.hdrBegin idx s = headerOpened idx s := if_pos rfl

theorem windowResult_eom (idx : Idx) (s : State) :
    windowResult Config.eom idx s = eomOpened idx s := by
  rw [windowResult, if_neg (by decide), if_pos rfl]

/-- The comparison writes the whole frame, so the frame before it leaves no trace (R113). -/
theorem windowResult_frame_irrel (win : List Byte) (idx : Idx) (s : State) (f : Frame) :
    windowResult win idx { s with frame := f } = windowResult win idx s := rfl

/-- The comparison takes the branch that the four stored bytes select (R113). -/
theorem compareHeader_eq (idx : Idx) (s : State) :
    compareHeader idx s = windowResult (headBytes s) idx s := rfl

/-- The fourth byte is stored next to the three before it and the four are compared (R112, R113). -/
theorem headerByte_fourth {s : State} (hwf : Memory.wf 4 s.frame.head) (hlen : s.frame.headlen.val = 3)
    (b : Byte) (idx : Idx) :
    headerByte b idx s = windowResult (completedWindow s.frame.head b) idx s := by
  have hwindow : headBytes { s with
      frame.head := memWrite s.frame.head 3 b, frame.headlen := 4 } =
        completedWindow s.frame.head b := by
    simp [headBytes_eq, completedWindow, memRead_memWrite hwf]
  rw [headerByte_compare hlen, compareHeader_eq, hwindow]
  exact windowResult_frame_irrel _ idx s _

/-- The state in `HeaderSearch` with the window `head` of `n` bytes. -/
def searchingWith (head : Memory 8) (n : Fin 5) (s : State) : State :=
  { s with frame.phase := .headerSearch, frame.head := head, frame.headlen := n }

/-- The first byte of an empty window is stored at cell 0 (R111). -/
theorem headerByte_first {s : State} (hlen : s.frame.headlen.val = 0) (b : Byte) (idx : Idx) :
    headerByte b idx (setPhase .headerSearch s) = searchingWith (memWrite s.frame.head 0 b) 1 s := by
  have hzero : s.frame.headlen = 0 := Fin.ext hlen
  have hroom : (setPhase .headerSearch s).frame.headlen.val < 3 := by simp [hzero]
  rw [headerByte_store hroom, setPhase_frame, hzero]
  rfl

/-- Below the fourth byte the counter of header bytes goes up by one (R112). -/
theorem headlen_succ_val {n : Fin 5} (h : n.val < 3) : (n + 1).val = n.val + 1 :=
  Fin.val_add_one_of_lt (Fin.lt_def.mpr (Nat.lt_succ_of_lt h))

/-- Settles O39: `SUBMIT.D.IDLE` is `SUBMIT.D.HS` after the phase change; in an empty window that stores
the byte at cell 0. -/
theorem firstDataByteOpensTheHeaderWindow : Obligations.FirstDataByteOpensTheHeaderWindow := by
  refine ⟨fun b idx s => ⟨firstByte b idx s, rfl, rfl⟩, fun b idx s hwf hlen => ?_⟩
  exact ⟨memWrite s.frame.head 0 b, congrArg Host.Outcome.next (headerByte_first hlen b idx),
    memRead_memWrite hwf 0 b⟩

/-- Settles O40: `headerByte_store`, the new window read cell by cell. -/
theorem headerByteIsStored : Obligations.HeaderByteIsStored := fun b idx s hwf hlen =>
  ⟨memWrite s.frame.head s.frame.headlen.val b, s.frame.headlen + 1,
    congrArg Host.Outcome.next (headerByte_store hlen b idx), headlen_succ_val hlen,
    memRead_memWrite hwf _ b⟩

/-- Settles O41: `headerByte_fourth`, branch by branch. -/
theorem fourthHeaderByteIsCompared : Obligations.FourthHeaderByteIsCompared := by
  intro b idx s hwf hlen
  have hexec : exec (.submitDHs b idx) s = .next (windowResult (completedWindow s.frame.head b) idx s) :=
    congrArg Host.Outcome.next (headerByte_fourth hwf hlen b idx)
  rw [hexec, windowResult, apply_ite Host.Outcome.next, apply_ite Host.Outcome.next]
  rfl

/-! ### The message text (R114, R118) -/

/-- Below the cap a message byte is stored at `msglen` (R114). -/
theorem messageByte_room {s : State} (h : s.frame.msglen.val < 268) (b : Byte) :
    messageByte b s = { s with
      frame.msg := memWrite s.frame.msg s.frame.msglen.val b
      frame.msglen := s.frame.msglen + 1 } := if_pos h

/-- At the cap a message byte is dropped (R114). -/
theorem messageByte_full {s : State} (h : s.frame.msglen.val = 268) (b : Byte) :
    messageByte b s = signal .messageSaturated s := if_neg (by rw [h]; decide)

/-- Below the cap the counter of message bytes goes up by one (R114). -/
theorem msglen_succ_val {n : Fin 269} (h : n.val < 268) : (n + 1).val = n.val + 1 :=
  Fin.val_add_one_of_lt (Fin.lt_def.mpr h)

/-- Settles O42: `messageByte_room` and `messageByte_full`. -/
theorem messageByteIsStoredOrDropped : Obligations.MessageByteIsStoredOrDropped := by
  refine ⟨fun b idx s hwf hlen => ?_, fun b idx s hlen => ?_⟩
  · exact ⟨memWrite s.frame.msg s.frame.msglen.val b, s.frame.msglen + 1,
      congrArg Host.Outcome.next (messageByte_room hlen b), msglen_succ_val hlen,
      memRead_memWrite hwf _ b⟩
  · exact congrArg Host.Outcome.next (messageByte_full hlen b)

/-- One more cell is one more byte at the end. -/
theorem memCells_succ {w : Nat} (m : Memory w) (n : Nat) :
    memCells m (n + 1) = memCells m n ++ [memRead m n] := by
  simp [memCells, List.range_succ]

/-- The cells of a space, cut in two. -/
theorem memCells_add {w : Nat} (m : Memory w) (n k : Nat) :
    memCells m (n + k) = memCells m n ++ (List.range k).map (fun i => memRead m (n + i)) := by
  simp [memCells, List.range_add, Function.comp_def]

/-- A stored text with its last hyphen at cell `n` is cut after that cell (R118). -/
theorem truncateText_memCells {m : Memory 8} {n len : Nat} (hle : n + 1 ≤ len)
    (hhyphen : memRead m n = Config.hyphen)
    (hlast : ∀ i, n + 1 ≤ i → i < len → memRead m i ≠ Config.hyphen) :
    truncateText (memCells m len) = memCells m (n + 1) := by
  obtain ⟨k, rfl⟩ := Nat.exists_eq_add_of_le hle
  have htail : ∀ b ∈ (List.range k).map (fun i => memRead m (n + 1 + i)), b ≠ Config.hyphen := by
    intro b hb
    obtain ⟨i, hi, rfl⟩ := List.mem_map.mp hb
    have := List.mem_range.mp hi
    exact hlast _ (by omega) (by omega)
  rw [memCells_add, memCells_succ, hhyphen, List.append_assoc, List.singleton_append,
    truncateText_append htail]

/-- A stored text without a hyphen stays whole (R118). -/
theorem truncateText_memCells_whole {m : Memory 8} {len : Nat}
    (hnone : ∀ i, i < len → memRead m i ≠ Config.hyphen) :
    truncateText (memCells m len) = memCells m len := by
  refine if_pos (lastHyphenEnd_eq_zero fun b hb => ?_)
  obtain ⟨i, hi, rfl⟩ := List.mem_map.mp hb
  exact hnone i (List.mem_range.mp hi)

/-- Filling an empty space from cell 0 leaves the values and zeros above them. -/
theorem memRead_memFill_nil {w : Nat} (vs : List (BitVec w)) (a : Nat) :
    memRead (memFill [] 0 vs) a = vs.getD a 0#w := by
  rw [memRead_memFill (Memory.wf_nil vs.length) (by omega)]
  by_cases ha : a < vs.length
  · rw [if_pos (by omega), Nat.sub_zero]
  · rw [if_neg (by omega), memRead_nil, List.getD_eq_default _ _ (by omega)]

/-- Settles O45: the composed message is `ZCZC` and the first `n` cells of the text; `last_msg` is filled
with it. -/
theorem nullInReadingMessageCompletesIt : Obligations.NullInReadingMessageCompletesIt := by
  intro idx s n hn
  have hcut : truncateText (msgBytes s) = memCells s.frame.msg n := by
    rcases hn with ⟨rfl, hnone⟩ | ⟨hpos, hle, hhyphen, hlast⟩
    · exact truncateText_memCells_whole hnone
    · obtain ⟨k, rfl⟩ := Nat.exists_eq_add_of_le' hpos
      exact truncateText_memCells hle hhyphen hlast
  have hmessage : composedMessage s = Config.hdrBegin ++ memCells s.frame.msg n := by
    rw [composedMessage, hcut]
  have hlen : (composedMessage s).length = 4 + n := by
    rw [hmessage, List.length_append, memCells_length]
    rfl
  refine ⟨memFill [] 0 (composedMessage s), Fin.ofNat 273 (composedMessage s).length, rfl,
    (composedMessage_len_val s).trans hlen, ?_, fun i hi => ?_, fun a ha => ?_⟩
  · simp only [memRead_memFill_nil, hmessage]
    exact ⟨rfl, rfl, rfl, rfl⟩
  · have hi' : i < (memCells s.frame.msg n).length := by rwa [memCells_length]
    calc memRead (memFill [] 0 (composedMessage s)) (4 + i)
        = (Config.hdrBegin ++ memCells s.frame.msg n).getD (4 + i) 0#8 := by
          rw [memRead_memFill_nil, hmessage]
      _ = (memCells s.frame.msg n).getD i 0#8 := by
          rw [List.getD_append_right _ _ _ _ (Nat.le_add_right 4 i)]
          exact congrArg (List.getD _ · 0#8) (Nat.add_sub_cancel_left 4 i)
      _ = memRead s.frame.msg i := by
          rw [List.getD_eq_getElem _ _ hi', memCells_getElem]
  · rw [memRead_memFill_nil, List.getD_eq_default _ _ (by omega)]

/-! ### The other cases of `submit` (R115 to R117, R119) -/

/-- Settles O43: both operations answer the state they were given. -/
theorem submissionsThatChangeNothing : Obligations.SubmissionsThatChangeNothing :=
  ⟨fun _ _ _ => rfl, fun _ _ => rfl⟩

/-- Settles O44: `abortHeader`, its two writes of the frame merged. -/
theorem nullInHeaderSearchAborts : Obligations.NullInHeaderSearchAborts := fun _ _ => rfl

/-- Settles O46: `completeEom`, its writes merged and the event's bit evaluated. -/
theorem nullInReadingEomCompletesIt : Obligations.NullInReadingEomCompletesIt := fun _ _ => rfl

/-! ### The phase (R120) -/

/-- Where a data byte takes the phase from `HeaderSearch` (R120). -/
theorem headerByte_phase {s : State} (hwf : Memory.wf 4 s.frame.head) (hle : s.frame.headlen.val ≤ 3)
    (b : Byte) (idx : Idx) :
    (headerByte b idx s).frame.phase =
      if s.frame.headlen.val < 3 then s.frame.phase
      else if completedWindow s.frame.head b = Config.hdrBegin then .readingMessage
      else if completedWindow s.frame.head b = Config.eom then .readingEom
      else .idle := by
  by_cases hlt : s.frame.headlen.val < 3
  · rw [headerByte_store hlt, if_pos hlt]
  · rw [headerByte_fourth hwf (by omega), if_neg hlt, windowResult_phase]

/-- Settles O47: the null byte leads to `Idle`; a data byte by the phase it finds. -/
theorem phaseTransitionTable : Obligations.PhaseTransitionTable := by
  intro b idx s hsearch hwf
  obtain ⟨hiff, hle⟩ := hsearch
  refine ⟨submit b idx s, exec_decodeSubmit b idx s, ?_⟩
  by_cases hb : b = 0#8
  · subst hb
    rw [Safety.submit_null_phase]
    cases s.frame.phase <;> rfl
  · simp only [submit_data hb, if_neg hb]
    cases hphase : s.frame.phase with
    | idle =>
      have hempty : s.frame.headlen.val = 0 :=
        Nat.eq_zero_of_not_pos fun hpos => nomatch hphase.symm.trans (hiff.mp hpos)
      rw [headerByte_first hempty]
      rfl
    | headerSearch =>
      rw [headerByte_phase hwf hle, hphase]
      rfl
    | readingMessage =>
      obtain ⟨-, -, -, -, -, hkept, -, -⟩ := messageByte_frame b s
      exact hkept.trans hphase
    | readingEom => exact hphase

/-! ### Bytes submitted one after the other -/

/-- The state a sequence of submitted bytes leaves. -/
def submitted (bytes : List (Byte × Idx)) (s : State) : State :=
  bytes.foldl (fun u c => submit c.1 c.2 u) s

@[simp] theorem submitted_nil (s : State) : submitted [] s = s := rfl

@[simp] theorem submitted_cons (c : Byte × Idx) (bytes : List (Byte × Idx)) (s : State) :
    submitted (c :: bytes) s = submitted bytes (submit c.1 c.2 s) := rfl

theorem submitted_append (first second : List (Byte × Idx)) (s : State) :
    submitted (first ++ second) s = submitted second (submitted first s) :=
  List.foldl_append

/-- Submitting never stops on the way: it leaves the state `submitted` names. -/
theorem submitAll_eq (bytes : List (Byte × Idx)) (s : State) :
    Safety.submitAll bytes s = .next (submitted bytes s) := by
  induction bytes generalizing s with
  | nil => rfl
  | cons c rest ih =>
    obtain ⟨b, idx⟩ := c
    rw [Safety.submitAll, exec_decodeSubmit]
    exact ih (submit b idx s)

/-- The first byte opens the window (R111). -/
theorem submit_idle {s : State} (hphase : s.frame.phase = .idle) (hlen : s.frame.headlen.val = 0)
    {b : Byte} (hb : b ≠ 0#8) (idx : Idx) :
    submit b idx s = searchingWith (memWrite s.frame.head 0 b) 1 s := by
  rw [submit_data hb, hphase]
  exact headerByte_first hlen b idx

/-- The second and the third byte are stored (R112). -/
theorem submit_searching {n : Fin 5} (hn : n.val < 3) {b : Byte} (hb : b ≠ 0#8) (idx : Idx)
    (head : Memory 8) (s : State) :
    submit b idx (searchingWith head n s) = searchingWith (memWrite head n.val b) (n + 1) s := by
  rw [submit_data hb]
  exact headerByte_store (s := searchingWith head n s) hn b idx

/-- The fourth byte completes the window (R113). -/
theorem submit_searching_fourth {head : Memory 8} (hwf : Memory.wf 4 head) {b : Byte} (hb : b ≠ 0#8)
    (idx : Idx) (s : State) :
    submit b idx (searchingWith head 3 s) = windowResult (completedWindow head b) idx s := by
  rw [submit_data hb]
  exact headerByte_fourth (s := searchingWith head 3 s) hwf rfl b idx

/-- Four data bytes from `Idle` are compared as they came; of the state before, the frame leaves no trace
(R111 to R113). -/
theorem submitted_window {s : State} (hphase : s.frame.phase = .idle) (hlen : s.frame.headlen.val = 0)
    (hwf : Memory.wf 4 s.frame.head) {b1 b2 b3 b4 : Byte} (h1 : b1 ≠ 0#8) (h2 : b2 ≠ 0#8)
    (h3 : b3 ≠ 0#8) (h4 : b4 ≠ 0#8) (i1 i2 i3 i4 : Idx) :
    submitted [(b1, i1), (b2, i2), (b3, i3), (b4, i4)] s = windowResult [b1, b2, b3, b4] i4 s := by
  have hwf1 := memWrite_wf hwf (a := 0) (by decide) b1
  have hwf2 := memWrite_wf hwf1 (a := 1) (by decide) b2
  have hwf3 := memWrite_wf hwf2 (a := 2) (by decide) b3
  have hwindow : completedWindow
      (memWrite (memWrite (memWrite s.frame.head 0 b1) 1 b2) 2 b3) b4 = [b1, b2, b3, b4] := by
    simp [completedWindow, memRead_memWrite hwf2, memRead_memWrite hwf1, memRead_memWrite hwf]
  calc submitted [(b1, i1), (b2, i2), (b3, i3), (b4, i4)] s
      = submit b4 i4 (submit b3 i3 (submit b2 i2 (submit b1 i1 s))) := rfl
    _ = submit b4 i4 (searchingWith
          (memWrite (memWrite (memWrite s.frame.head 0 b1) 1 b2) 2 b3) 3 s) := by
        rw [submit_idle hphase hlen h1, submit_searching (by decide) h2,
          submit_searching (by decide) h3]
        rfl
    _ = windowResult [b1, b2, b3, b4] i4 s := by
        rw [submit_searching_fourth hwf3 h4, hwindow]

/-- The state reads a message and has stored `text`; its outputs are `o`. -/
structure ReadingText (text : List Byte) (o : Outs) (s : State) : Prop where
  phase : s.frame.phase = .readingMessage
  wf : Memory.wf 268 s.frame.msg
  text : msgBytes s = text
  outs : s.outs = o

/-- The length counter counts the stored text. -/
theorem ReadingText.msglen {text : List Byte} {o : Outs} {s : State} (h : ReadingText text o s) :
    s.frame.msglen.val = text.length := by
  rw [← h.text, msgBytes, memCells_length]

/-- A message opens with an empty text (R113). -/
theorem readingText_headerOpened (idx : Idx) (s : State) :
    ReadingText [] { s.outs with headerStart := idx, inAlert := true } (headerOpened idx s) :=
  ⟨rfl, Memory.wf_nil _, rfl, rfl⟩

/-- A data byte below the cap is appended to the text (R114). -/
theorem ReadingText.submit {text : List Byte} {o : Outs} {s : State} (h : ReadingText text o s)
    (hroom : text.length < 268) {b : Byte} (hb : b ≠ 0#8) (idx : Idx) :
    ReadingText (text ++ [b]) o (submit b idx s) := by
  have hlt : s.frame.msglen.val < 268 := by rw [h.msglen]; exact hroom
  have hstored : Machine.submit b idx s = { s with
      frame.msg := memWrite s.frame.msg s.frame.msglen.val b
      frame.msglen := s.frame.msglen + 1 } := by
    rw [submit_data hb, h.phase, ← messageByte_room hlt]
  rw [hstored]
  refine ⟨h.phase, memWrite_wf h.wf hlt b, ?_, h.outs⟩
  have hold : memCells (memWrite s.frame.msg s.frame.msglen.val b) s.frame.msglen.val = text := by
    rw [← h.text]
    refine memCells_congr fun a ha => ?_
    rw [memRead_memWrite h.wf, if_neg (by omega)]
  have hnew : memRead (memWrite s.frame.msg s.frame.msglen.val b) s.frame.msglen.val = b := by
    rw [memRead_memWrite h.wf, if_pos rfl]
  simp only [msgBytes, msglen_succ_val hlt, memCells_succ, hold, hnew]

/-- Data bytes that fit the buffer are appended to the text in their order (R114). -/
theorem ReadingText.submitted {text : List Byte} {o : Outs} {s : State} {bytes : List (Byte × Idx)}
    (h : ReadingText text o s) (hdata : ∀ c ∈ bytes, c.1 ≠ 0#8)
    (hfit : text.length + bytes.length ≤ 268) :
    ReadingText (text ++ bytes.map Prod.fst) o (submitted bytes s) := by
  induction bytes generalizing text s with
  | nil => simpa using h
  | cons c rest ih =>
    obtain ⟨hc, hrest⟩ := List.forall_mem_cons.mp hdata
    rw [List.length_cons] at hfit
    have hnext := ih (h.submit (by omega) hc c.2) hrest (by rw [List.length_append]; simp; omega)
    simpa using hnext

/-- The message composed of a text with a hyphen ends with its last one (R118). -/
theorem ReadingText.completed {body tail : List Byte} {o : Outs} {s : State}
    (h : ReadingText (body ++ Config.hyphen :: tail) o s) (htail : ∀ b ∈ tail, b ≠ Config.hyphen)
    (idx : Idx) :
    (completeMessage idx s).outs.lastMsgLen.val = 4 + (body.length + 1)
      ∧ memCells (completeMessage idx s).outs.lastMsg (4 + (body.length + 1)) =
          Config.hdrBegin ++ body ++ [Config.hyphen] := by
  have hmessage : composedMessage s = Config.hdrBegin ++ body ++ [Config.hyphen] := by
    rw [composedMessage, h.text, truncateText_append htail, List.append_assoc]
  have hlength : (composedMessage s).length = 4 + (body.length + 1) := by
    rw [hmessage, List.append_assoc, List.length_append, List.length_append]
    rfl
  rw [completeMessage_outs]
  refine ⟨(composedMessage_len_val s).trans hlength, ?_⟩
  rw [← hlength, memCells_memFill (composedMessage_length_le s), hmessage]

/-- In `ReadingEOM` data bytes change nothing (R115). -/
theorem submitted_readingEom {s : State} (hphase : s.frame.phase = .readingEom)
    {bytes : List (Byte × Idx)} (hdata : ∀ c ∈ bytes, c.1 ≠ 0#8) : submitted bytes s = s := by
  induction bytes with
  | nil => rfl
  | cons c rest ih =>
    obtain ⟨hc, hrest⟩ := List.forall_mem_cons.mp hdata
    have hkept : submit c.1 c.2 s = s := by rw [submit_data hc, hphase]
    rw [submitted_cons, hkept, ih hrest]

/-! ### Whole messages (R121) -/

/-- From `Idle`, `ZCZC` and data bytes that fit the buffer leave those bytes as the stored text (R111 to
R114). -/
theorem readingText_submitted_header {s : State} (hphase : s.frame.phase = .idle)
    (hlen : s.frame.headlen.val = 0) (hwf : Memory.wf 4 s.frame.head) {bytes : List (Byte × Idx)}
    (hdata : ∀ c ∈ bytes, c.1 ≠ 0#8) (hfit : bytes.length ≤ 268) (i1 i2 i3 i4 : Idx) :
    ReadingText (bytes.map Prod.fst) { s.outs with headerStart := i4, inAlert := true }
      (submitted ([(0x5A#8, i1), (0x43#8, i2), (0x5A#8, i3), (0x43#8, i4)] ++ bytes) s) := by
  have hopen : submitted [(0x5A#8, i1), (0x43#8, i2), (0x5A#8, i3), (0x43#8, i4)] s
      = headerOpened i4 s := by
    rw [submitted_window hphase hlen hwf (by decide) (by decide) (by decide) (by decide)]
    exact windowResult_hdrBegin i4 s
  rw [submitted_append, hopen]
  exact (readingText_headerOpened i4 s).submitted hdata (by simpa using hfit)

/-- Settles O48: `ZCZC` and the text leave the text stored, and the null byte composes the message from
it. -/
theorem headerMessageIsDecodedWhole : Obligations.HeaderMessageIsDecodedWhole := by
  intro s i1 i2 i3 i4 iEnd body tail iHyphen hphase hlen hwf hdata htail hfit
  have hnonzero : ∀ c ∈ body ++ [(0x2D#8, iHyphen)] ++ tail, c.1 ≠ 0#8 := by
    obtain ⟨hbody, hrest⟩ := List.forall_mem_append.mp hdata
    exact List.forall_mem_append.mpr ⟨List.forall_mem_append.mpr ⟨hbody, by simp⟩, hrest⟩
  have hread := readingText_submitted_header hphase hlen hwf hnonzero (by simp; omega) i1 i2 i3 i4
  obtain ⟨u, hu⟩ : ∃ u, submitted ([(0x5A#8, i1), (0x43#8, i2), (0x5A#8, i3), (0x43#8, i4)]
      ++ (body ++ [(0x2D#8, iHyphen)] ++ tail)) s = u := ⟨_, rfl⟩
  rw [hu] at hread
  have hrun : submitted ([(0x5A#8, i1), (0x43#8, i2), (0x5A#8, i3), (0x43#8, i4)]
      ++ (body ++ [(0x2D#8, iHyphen)] ++ tail) ++ [(0#8, iEnd)]) s = completeMessage iEnd u := by
    rw [submitted_append, hu, submitted_cons, submitted_nil, submit_null, hread.phase]
  have htext : (body ++ [(0x2D#8, iHyphen)] ++ tail).map Prod.fst
      = body.map Prod.fst ++ Config.hyphen :: tail.map Prod.fst := by simp
  obtain ⟨hlength, hcells⟩ := (htext ▸ hread).completed
    (List.forall_mem_map.mpr fun c hc => htail c hc) iEnd
  rw [List.length_map] at hlength hcells
  refine ⟨completeMessage iEnd u, by rw [submitAll_eq, hrun], hlength, hcells, ?_, rfl, ?_, rfl⟩
  · rw [completeMessage_outs, hread.outs]
  · rw [completeMessage_outs, hread.outs]

/-- Settles O49: the window opens the end of message, the bytes after it are discarded, and the null byte
completes it. -/
theorem endOfMessageIsDecodedWhole : Obligations.EndOfMessageIsDecodedWhole := by
  intro s i1 i2 i3 i4 iEnd extra hphase hlen hwf hdata
  have hopen : submitted [(0x4E#8, i1), (0x4E#8, i2), (0x4E#8, i3), (0x4E#8, i4)] s
      = eomOpened i4 s := by
    rw [submitted_window hphase hlen hwf (by decide) (by decide) (by decide) (by decide)]
    exact windowResult_eom i4 s
  have hrun : submitted ([(0x4E#8, i1), (0x4E#8, i2), (0x4E#8, i3), (0x4E#8, i4)]
      ++ extra ++ [(0#8, iEnd)]) s = completeEom iEnd (eomOpened i4 s) := by
    rw [submitted_append, submitted_append, hopen, submitted_readingEom rfl hdata]
    rfl
  refine ⟨_, submitAll_eq _ s, ?_⟩
  rw [hrun]
  exact ⟨rfl, rfl, rfl, rfl, rfl, BitVec.or_assoc _ _ _⟩

end Sys2Proof.Machine

/-! The host commands (spec/43_host_commands.md) other than `SAMPLE`: the whole next state of each, and that
none of them, as no other operation, stops the block. -/

namespace Sys2Proof.Machine

/-! ### `FLUSH` (R132) -/

/-- `FLUSH` performs the `submit` case that the null byte and the current phase select, with `cur_idx`
(R67, R132). -/
theorem exec_flush_eq_decodeSubmit (s : State) :
    exec .flush s = exec (decode (.frameByte s.frame.phase 0#8 s.corr.curIdx)) s :=
  calc exec .flush s = .next (submit 0#8 s.corr.curIdx s) := exec_eq_effect .flush s
    _ = exec (decode (.frameByte s.frame.phase 0#8 s.corr.curIdx)) s := (exec_decodeSubmit _ _ s).symm

/-- Settles O18: the selected case is a `submit`, whose frame holds `CORR`, `SYNC` and the wires. -/
theorem flushSubmitsANullByte : Obligations.FlushSubmitsANullByte := by
  intro s
  have hsubmit := exec_decodeSubmit 0#8 s.corr.curIdx s
  exact ⟨submit 0#8 s.corr.curIdx s, (exec_flush_eq_decodeSubmit s).trans hsubmit, hsubmit,
    submit_corr _ _ s, submit_sync _ _ s, submit_wires _ _ s⟩

/-! ### Every operation and every step goes on (R136, R140) -/

/-- Settles O10: `exec_eq_effect` and `step_eq` name the next states. -/
theorem nothingEverStops : Obligations.NothingEverStops :=
  ⟨fun i s => ⟨effect i s, exec_eq_effect i s⟩, fun s => ⟨_, step_eq s⟩⟩

/-! ### `NOP`, `CLEAR`, `ACK` and the reserved commands (R130, R133 to R135) -/

/-- Settles O14: the effect of `NOP` is the state it was given. -/
theorem nopChangesNothing : Obligations.NopChangesNothing := exec_eq_effect .nop

/-- Settles O15: the effect of `CLEAR` is `resetRegisters`, which `rst` performs too (R161). -/
theorem clearGivesTheResetState : Obligations.ClearGivesTheResetState := exec_eq_effect .clear

/-- A flag stands after `ACK` where it stood before and the mask does not select it (R134). -/
theorem getLsbD_acknowledge_evflags (mask : BitVec 4) (s : State) {k : Nat} (hk : k < 4) :
    (acknowledge mask s).iface.evflags.getLsbD k
      = (s.iface.evflags.getLsbD k && !(mask.getLsbD k)) := by
  rw [acknowledge_iface, BitVec.getLsbD_and, BitVec.getLsbD_not, decide_eq_true hk, Bool.true_and]

/-- Settles O16: the flags are those of `acknowledge`, read bit by bit. -/
theorem ackClearsTheMaskedFlags : Obligations.AckClearsTheMaskedFlags := fun mask s =>
  ⟨(acknowledge mask s).iface.evflags, exec_eq_effect (.ack mask) s,
    fun _ hk => getLsbD_acknowledge_evflags mask s hk⟩

/-- The three reserved commands have one effect (R135). -/
theorem effect_of_mem_reserved {i : Instr} (hi : i ∈ [Instr.reserved5, .reserved6, .reserved7])
    (s : State) : effect i s = reservedCommand s := by
  simp only [List.mem_cons, List.not_mem_nil, or_false] at hi
  rcases hi with rfl | rfl | rfl
  · rfl
  · rfl
  · rfl

/-- Settles O17: the common effect is `reservedCommand`, its flag and its condition written out. -/
theorem reservedCommandsSetCmderr : Obligations.ReservedCommandsSetCmderr := by
  intro i hi s
  rw [exec_eq_effect, effect_of_mem_reserved hi]
  rfl

end Sys2Proof.Machine

/-! Conditions and events (spec/60_exceptions.md): what one step may signal and emit, and what becomes of
the sticky flags. A step without an input stands here too, since it ends the pulses of the step before. -/

namespace Sys2Proof.Machine

/-! ### A step without an input (R152, R163) -/

/-- Settles O9: the row of `step_eq` for no input is `quiet`, its two writes written out. -/
theorem stepWithoutInputHoldsState : Obligations.StepWithoutInputHoldsState := by
  intro s hin
  rw [step_eq, hin]
  rfl

/-! ### What a transition reports

At most one event and at most one condition: that much is in the type of a report. What is proved of each
operation is that it leaves such a report, and which pairs it can leave. -/

/-- The bits an event, or none, sets in `evflags` and `ev_out` (R145). -/
def pulseOf : Option Event → BitVec 4
  | none => 0#4
  | some e => eventBit e

/-- The pairs of an event and a condition that one transition may report (R146). -/
inductive MayCoincide : Option Event → Option Condition → Prop where
  /-- No condition. -/
  | eventOnly (e : Option Event) : MayCoincide e none
  /-- No event. -/
  | conditionOnly (c : Option Condition) : MayCoincide none c
  /-- A framing failure and the end of a message that its null byte causes (R99). -/
  | failureEndsHeader : MayCoincide (some .hdrEnd) (some .framingFailure)
  /-- A framing failure and the end of an EOM that its null byte causes (R99). -/
  | failureEndsEom : MayCoincide (some .eomEnd) (some .framingFailure)

/-- From the flags `f` and the pins `p` to the flags `f'` and the pins `p'`, exactly this event and this
condition are added. -/
structure Reports (f : BitVec 4) (p : Port) (e : Option Event) (c : Option Condition) (f' : BitVec 4)
    (p' : Port) : Prop where
  flags : f' = f ||| pulseOf e
  pulse : p'.evOut = p.evOut ||| pulseOf e
  conds : p'.conds = p.conds ++ c.toList

/-- One report of a pair that may coincide is added. -/
def OneReport (f : BitVec 4) (p : Port) (f' : BitVec 4) (p' : Port) : Prop :=
  ∃ e c, MayCoincide e c ∧ Reports f p e c f' p'

theorem Reports.refl (f : BitVec 4) (p : Port) : Reports f p none none f p :=
  ⟨BitVec.or_zero.symm, BitVec.or_zero.symm, (List.append_nil _).symm⟩

theorem OneReport.refl (f : BitVec 4) (p : Port) : OneReport f p f p :=
  ⟨none, none, .eventOnly none, .refl f p⟩

/-- `emit` reports its event alone (R145). -/
theorem emit_reports (e : Event) (s : State) :
    Reports s.iface.evflags s.port (some e) none (emit e s).iface.evflags (emit e s).port :=
  ⟨rfl, rfl, (List.append_nil _).symm⟩

/-- `signal` reports its condition alone (R140). -/
theorem signal_reports (c : Condition) (s : State) :
    Reports s.iface.evflags s.port none (some c) (signal c s).iface.evflags (signal c s).port :=
  ⟨BitVec.or_zero.symm, BitVec.or_zero.symm, rfl⟩

theorem emit_oneReport (e : Event) (s : State) :
    OneReport s.iface.evflags s.port (emit e s).iface.evflags (emit e s).port :=
  ⟨some e, none, .eventOnly _, emit_reports e s⟩

theorem signal_oneReport (c : Condition) (s : State) :
    OneReport s.iface.evflags s.port (signal c s).iface.evflags (signal c s).port :=
  ⟨none, some c, .conditionOnly _, signal_reports c s⟩

/-! ### The frame decoder -/

/-- The header comparison: `HDR_START`, `EOM_START` or `NegativeMatch` (R113). -/
theorem compareHeader_oneReport (idx : Idx) (s : State) :
    OneReport s.iface.evflags s.port (compareHeader idx s).iface.evflags (compareHeader idx s).port := by
  rcases compareHeader_cases idx s with ⟨-, h⟩ | ⟨-, h⟩ | ⟨-, -, h⟩ <;> rw [h]
  · exact emit_oneReport .hdrStart s
  · exact emit_oneReport .eomStart s
  · exact signal_oneReport .negativeMatch s

/-- Storing a header byte writes no interface register (R112). -/
theorem appendHead_iface (b : Byte) (s : State) : (appendHead b s).iface = s.iface := by
  unfold appendHead
  split <;> rfl

/-- A header byte reports what the comparison it may lead to reports (R112). -/
theorem headerByte_oneReport (b : Byte) (idx : Idx) (s : State) :
    OneReport s.iface.evflags s.port (headerByte b idx s).iface.evflags (headerByte b idx s).port := by
  obtain ⟨-, hport⟩ := appendHead_outs b s
  rw [← appendHead_iface b s, ← hport]
  unfold headerByte
  split
  · exact compareHeader_oneReport idx (appendHead b s)
  · exact .refl _ _

/-- A message byte is stored, or dropped with `MessageSaturated` (R114). -/
theorem messageByte_oneReport (b : Byte) (s : State) :
    OneReport s.iface.evflags s.port (messageByte b s).iface.evflags (messageByte b s).port := by
  unfold messageByte
  split
  · exact .refl _ _
  · exact signal_oneReport .messageSaturated s

/-- The null byte signals nothing, and emits at most an end: one of the events a framing failure may come
with (R116 to R119, R146). -/
theorem submit_null_reports (idx : Idx) (s : State) :
    ∃ e, MayCoincide e (some .framingFailure) ∧
      Reports s.iface.evflags s.port e none
        (submit 0#8 idx s).iface.evflags (submit 0#8 idx s).port := by
  rw [submit_null]
  cases s.frame.phase with
  | idle => exact ⟨none, .conditionOnly _, .refl _ _⟩
  | headerSearch => exact ⟨none, .conditionOnly _, .refl _ _⟩
  | readingMessage => exact ⟨some .hdrEnd, .failureEndsHeader, emit_reports .hdrEnd s⟩
  | readingEom => exact ⟨some .eomEnd, .failureEndsEom, emit_reports .eomEnd s⟩

/-- Every submitted byte (R111 to R119). -/
theorem submit_oneReport (b : Byte) (idx : Idx) (s : State) :
    OneReport s.iface.evflags s.port (submit b idx s).iface.evflags (submit b idx s).port := by
  by_cases hb : b = 0#8
  · subst hb
    obtain ⟨e, -, hreports⟩ := submit_null_reports idx s
    exact ⟨e, none, .eventOnly e, hreports⟩
  · rw [submit_data hb]
    cases s.frame.phase with
    | idle => exact headerByte_oneReport b idx (setPhase .headerSearch s)
    | headerSearch => exact headerByte_oneReport b idx s
    | readingMessage => exact messageByte_oneReport b s
    | readingEom => exact .refl _ _

/-! ### The decision step -/

/-- The null byte after a framing failure adds no condition to it (R99, R146). -/
theorem submit_framingFailed_oneReport (idx : Idx) (s : State) :
    OneReport s.iface.evflags s.port (submit 0#8 idx (framingFailed s)).iface.evflags
      (submit 0#8 idx (framingFailed s)).port := by
  obtain ⟨e, hmay, hflags, hpulse, hconds⟩ := submit_null_reports idx (framingFailed s)
  exact ⟨e, some .framingFailure, hmay, hflags, hpulse, hconds.trans (List.append_nil _)⟩

/-- A decision step submits at most one byte (R96 to R99). -/
theorem DecisionOutcome.oneReport {u t : State} (h : DecisionOutcome u t) :
    OneReport u.iface.evflags u.port t.iface.evflags t.port := by
  cases h with
  | held => exact .refl _ _
  | aligned => exact .refl _ _
  | counted => exact .refl _ _
  | passed => exact submit_oneReport u.sync.lasts u.corr.curIdx u
  | failed => exact submit_framingFailed_oneReport u.corr.curIdx u

theorem stepFromTone_oneReport {f : BitVec 4} {p : Port} {s : State} (hf : s.iface.evflags = f)
    (hp : s.port = p) : OneReport f p (stepFromTone s).iface.evflags (stepFromTone s).port := by
  subst hf hp
  obtain ⟨u, ⟨d, n, q, l, r, rfl, -⟩, hout⟩ := stepFromTone_outcome s
  exact hout.oneReport

/-- A unit-level tone is one decision step (R73). -/
theorem toneStep_oneReport (sg : ToneSign) (idx : Idx) (s : State) :
    OneReport s.iface.evflags s.port (toneStep sg idx s).iface.evflags (toneStep sg idx s).port := by
  rw [toneStep]
  exact stepFromTone_oneReport rfl rfl

/-- A `SAMPLE` performs at most one decision step (R131). -/
theorem sample_oneReport (x : Sample) (s : State) :
    OneReport s.iface.evflags s.port (sample x s).iface.evflags (sample x s).port := by
  obtain ⟨win', -, ⟨-, h⟩ | ⟨-, -, h⟩ | ⟨-, h⟩⟩ := sample_spec x s <;> rw [h]
  · exact .refl _ _
  · exact .refl _ _
  · exact stepFromTone_oneReport rfl rfl

/-! ### The step -/

/-- One report was added to the flags `f`, and the pins of `t` show that report and nothing older. -/
def StepReport (f : BitVec 4) (t : State) : Prop :=
  ∃ e c, MayCoincide e c ∧ t.iface.evflags = f ||| pulseOf e ∧ t.port.evOut = pulseOf e
    ∧ t.port.conds = c.toList

/-- Where nothing older stood on the pins, they show what was reported. -/
theorem OneReport.stepReport {f : BitVec 4} {p : Port} {t : State}
    (h : OneReport f p t.iface.evflags t.port) (hev : p.evOut = 0#4) (hconds : p.conds = []) :
    StepReport f t := by
  obtain ⟨e, c, hmay, hflags, hpulse, hc⟩ := h
  rw [hev, BitVec.zero_or] at hpulse
  rw [hconds, List.nil_append] at hc
  exact ⟨e, c, hmay, hflags, hpulse, hc⟩

/-- Nothing was reported. -/
theorem stepReport_silent {t : State} (hev : t.port.evOut = 0#4) (hconds : t.port.conds = []) :
    StepReport t.iface.evflags t :=
  (OneReport.refl _ t.port).stepReport hev hconds

/-- A command adds its report to the flags it finds, but for `CLEAR` and `ACK`, which put new flags in
their place (R133, R134). -/
theorem command_stepReport {a : State} (hev : a.port.evOut = 0#4) (hconds : a.port.conds = [])
    (w : CmdWord) :
    ∃ f, StepReport f (effect (decodeCmd w) a)
      ∧ (f = a.iface.evflags ∨ decodeCmd w = .clear ∨ ∃ m, decodeCmd w = .ack m) := by
  have hreserved : StepReport a.iface.evflags (reservedCommand a) :=
    (signal_oneReport .reservedCommand { a with iface.cmderr := true }).stepReport hev hconds
  rcases decodeCmd_cases w with h | ⟨x, h⟩ | h | h | ⟨m, h⟩ | h | h | h <;> rw [h]
  · exact ⟨_, stepReport_silent hev hconds, .inl rfl⟩
  · exact ⟨_, (sample_oneReport x a).stepReport hev hconds, .inl rfl⟩
  · exact ⟨_, (submit_oneReport 0#8 a.corr.curIdx a).stepReport hev hconds, .inl rfl⟩
  · exact ⟨_, stepReport_silent rfl rfl, .inr (.inl rfl)⟩
  · exact ⟨_, stepReport_silent hev hconds, .inr (.inr ⟨m, rfl⟩)⟩
  · exact ⟨_, hreserved, .inl rfl⟩
  · exact ⟨_, hreserved, .inl rfl⟩
  · exact ⟨_, hreserved, .inl rfl⟩

/-- Every step adds one report to the flags it finds, but for `rst`, `CLEAR` and `ACK`, which put new flags
in their place (R145, R146). -/
theorem step_stepReport {s t : State} (hstep : step s = .next t) :
    ∃ f, StepReport f t
      ∧ (f = s.iface.evflags ∨ (∃ rest, s.port.inputs = .rst :: rest)
        ∨ ∃ w τ rest, s.port.inputs = .cmd w τ :: rest
            ∧ (decode (.cmd w) = .clear ∨ ∃ m, decode (.cmd w) = .ack m)) := by
  rcases step_cases hstep with ⟨-, rfl⟩ | ⟨rest, hin, rfl⟩ | ⟨w, τ, rest, hin, rfl⟩
    | ⟨sg, idx, τ, rest, -, h⟩ | ⟨b, idx, τ, rest, -, rfl⟩
  · exact ⟨_, stepReport_silent rfl rfl, .inl rfl⟩
  · exact ⟨_, stepReport_silent rfl rfl, .inr (.inl ⟨rest, hin⟩)⟩
  · obtain ⟨f, hreport, hf | hreplaced⟩ := command_stepReport (a := accepted τ rest s) rfl rfl w
    · exact ⟨f, hreport, .inl hf⟩
    · exact ⟨f, hreport, .inr (.inr ⟨w, τ, rest, hin, hreplaced⟩)⟩
  · rw [h]
    exact ⟨_, (toneStep_oneReport sg idx (accepted τ rest s)).stepReport rfl rfl, .inl rfl⟩
  · exact ⟨_, (submit_oneReport b idx (accepted τ rest s)).stepReport rfl rfl, .inl rfl⟩

/-! ### The statements of spec/60_exceptions.md -/

/-- An event number is below 4, so a pulse is no bit or one of four. -/
theorem pulseOf_cases (e : Option Event) :
    pulseOf e = 0#4 ∨ pulseOf e = 1#4 ∨ pulseOf e = 2#4 ∨ pulseOf e = 4#4 ∨ pulseOf e = 8#4 := by
  rcases e with _ | (_ | _ | _ | _) <;> decide

/-- The report of a pair with both an event and a condition is a framing failure with an end (R146). -/
theorem MayCoincide.both {e : Option Event} {c : Option Condition} (h : MayCoincide e c)
    (hc : c.toList ≠ []) (he : pulseOf e ≠ 0#4) :
    c.toList = [.framingFailure] ∧ (pulseOf e = 2#4 ∨ pulseOf e = 8#4) := by
  cases h with
  | eventOnly => exact absurd rfl hc
  | conditionOnly => exact absurd rfl he
  | failureEndsHeader => exact ⟨rfl, .inl rfl⟩
  | failureEndsEom => exact ⟨rfl, .inr rfl⟩

/-- Settles O55: the pins show the one report of `step_stepReport`. -/
theorem atMostOneEventPerStep : Obligations.AtMostOneEventPerStep := by
  intro s t hstep
  obtain ⟨f, ⟨e, c, hmay, -, hpulse, hconds⟩, -⟩ := step_stepReport hstep
  rw [hpulse, hconds]
  exact ⟨Option.length_toList_le, pulseOf_cases e, hmay.both⟩

/-- Settles O56: the flags are those the step found, with the pulse added; the steps that put others in
their place are the exceptions of R145. -/
theorem eventFlagsAreSticky : Obligations.EventFlagsAreSticky := by
  intro s t hstep
  obtain ⟨f, ⟨e, c, -, hflags, hpulse, -⟩, rfl | hreplaced⟩ := step_stepReport hstep
  · exact .inl (by rw [hflags, hpulse])
  · exact .inr hreplaced

end Sys2Proof.Machine
